-- ==== Sys2Proof/Config.lean ====
section
/-! DEFINITION. The implementation parameters of 00_scope.md R6, the core's whole configuration (10_state.md
R20). The model takes them as one argument, `Config.params`: every type and every definition of the model
reads a size from there by its name, and another instance of the model is another value of `params` (log
entry 12). The spec states a value for each and leaves none open, so nothing here is a free value. -/

namespace Sys2Proof.Config

/-- The nine parameters, each with the spec's value as its default (R6, decision D23). -/
structure Params where
  /-- `NREGS`: number of general registers. -/
  nregs : Nat := 64
  /-- `XLEN`: width of a general register and of the ALU result, in bits. -/
  xlen : Nat := 8
  /-- `ILEN`: width of an instruction word, in bits. -/
  ilen : Nat := 16
  /-- `IMEM_WORDS`: instruction memory size in words, and the fetch bound. -/
  imemWords : Nat := 1024
  /-- `DMEM_BYTES`: data memory size in bytes. -/
  dmemBytes : Nat := 2048
  /-- `NFLAGS`: number of status flags. -/
  nflags : Nat := 5
  /-- `STALL_DEPTH`: stall cycles after a taken control transfer. -/
  stallDepth : Nat := 2
  /-- `WLEN`: the working integer width, of the sign-extender's output, the pc and addresses (D1). -/
  wlen : Nat := 16
  /-- `NOPCODES`: the defined opcodes are 0 to `NOPCODES - 1`. -/
  nopcodes : Nat := 12
  deriving DecidableEq, Repr

/-- The argument of this model: every parameter at the spec's value. -/
abbrev params : Params := {}

/-- `NREGS`. -/
abbrev nregs : Nat := params.nregs
/-- `XLEN`. -/
abbrev xlen : Nat := params.xlen
/-- `ILEN`. -/
abbrev ilen : Nat := params.ilen
/-- `IMEM_WORDS`. -/
abbrev imemWords : Nat := params.imemWords
/-- `DMEM_BYTES`. -/
abbrev dmemBytes : Nat := params.dmemBytes
/-- `NFLAGS`. -/
abbrev nflags : Nat := params.nflags
/-- `STALL_DEPTH`. -/
abbrev stallDepth : Nat := params.stallDepth
/-- `WLEN`. -/
abbrev wlen : Nat := params.wlen
/-- `NOPCODES`. -/
abbrev nopcodes : Nat := params.nopcodes

end Sys2Proof.Config
end

