-- ==== Sys2Proof/Word.lean ====
section
/-! DEFINITION. The value types of the core: bytes, words, working integers, register indices, and the
closed enumerations of opcodes and formats (00_scope.md R6, R9, R10; 30_encoding.md R72, R73, R76;
40_pipeline.md R109). Each width that R6 names is read from Config; a width that the rules give as a field
of the encoding, such as the 6 bits of a register index, is a literal. -/

namespace Sys2Proof

/-- A general-register value or an ALU result: `XLEN` bits (R6, R21). A byte of data memory has the same
width (20_memory.md R53). -/
abbrev Byte := BitVec Config.xlen

/-- An instruction word: `ILEN` bits (R6). -/
abbrev Word := BitVec Config.ilen

/-- A working integer: an instruction address, a data address or an extended immediate, `WLEN` bits (R6,
decision D1). -/
abbrev WorkInt := BitVec Config.wlen

/-- A register index, 6 bits (R21, R72). -/
abbrev RegIdx := BitVec 6

/-- The two instruction formats (R72, R73). -/
inductive Format where
  /-- Two register operands: opcodes 0, 1, 2, 6 and 7 (R72). -/
  | register
  /-- One register and one 6-bit immediate: opcodes 3, 4, 5, 8, 9, 10 and 11 (R73). -/
  | immediate
  deriving DecidableEq, Repr

/-- The twelve defined opcodes, a closed enumeration, so that Execute's dispatch has no default
arm (R76, R109). The bit pattern of each is `Opcode.toBits` in Decode.lean. -/
inductive Opcode where
  | add | sub | mul | movi | beqz | andi | eor | br | sal | sar | ldr | str
  deriving DecidableEq, Repr

end Sys2Proof
end

