-- ==== Sys2Proof/Syntax.lean ====
section
/-! DEFINITION. The instruction set: one constructor per row of the opcode table (30_encoding.md
R76). An R-format instruction carries the indices `rs` and `rt` (R72); an I-format instruction
carries `rs` and the `WLEN`-bit immediate that the sign-extender makes (R73, R74). -/

namespace Sys2Proof

/-- The twelve instructions. `rs` is the first source and the destination of every
register-writing instruction (00_scope.md R15). -/
inductive Instr where
  /-- ADD Rs, Rt (41_alu.md R137). -/
  | add (rs rt : RegIdx)
  /-- SUB Rs, Rt (41_alu.md R138). -/
  | sub (rs rt : RegIdx)
  /-- MUL Rs, Rt (41_alu.md R139). -/
  | mul (rs rt : RegIdx)
  /-- MOVI Rs, imm (41_alu.md R140). -/
  | movi (rs : RegIdx) (imm : WorkInt)
  /-- BEQZ Rs, imm (43_control_transfer.md R171). -/
  | beqz (rs : RegIdx) (imm : WorkInt)
  /-- ANDI Rs, imm (41_alu.md R141). -/
  | andi (rs : RegIdx) (imm : WorkInt)
  /-- EOR Rs, Rt (41_alu.md R142). -/
  | eor (rs rt : RegIdx)
  /-- BR Rs, Rt (43_control_transfer.md R172). -/
  | br (rs rt : RegIdx)
  /-- SAL Rs, imm (41_alu.md R144). -/
  | sal (rs : RegIdx) (imm : WorkInt)
  /-- SAR Rs, imm (41_alu.md R145). -/
  | sar (rs : RegIdx) (imm : WorkInt)
  /-- LDR Rs, imm (42_load_store.md R161). -/
  | ldr (rs : RegIdx) (imm : WorkInt)
  /-- STR Rs, imm (42_load_store.md R162). -/
  | str (rs : RegIdx) (imm : WorkInt)
  deriving DecidableEq, Repr

end Sys2Proof
end

