-- ==== Sys2Proof/WellFormed.lean ====
section
/-! DEFINITION. Which instructions have an encoding and may stand in a program (30_encoding.md
R78, R79; 70_reset_and_hazards.md R204). Register indices are 6 bits wide, so they are in range by
type; an immediate is `WLEN` bits wide and must lie in -32 to 31. -/

namespace Sys2Proof

/-- The range of the I-format immediate, -32 to +31 (R78). -/
def immInRange (imm : WorkInt) : Bool := decide (-32 ≤ imm.toInt) && decide (imm.toInt ≤ 31)

/-- The operands of the instruction have an encoding (R78). -/
def Instr.encodable : Instr → Bool
  | .add _ _ => true
  | .sub _ _ => true
  | .mul _ _ => true
  | .movi _ imm => immInRange imm
  | .beqz _ imm => immInRange imm
  | .andi _ imm => immInRange imm
  | .eor _ _ => true
  | .br _ _ => true
  | .sal _ imm => immInRange imm
  | .sar _ imm => immInRange imm
  | .ldr _ imm => immInRange imm
  | .str _ imm => immInRange imm

/-- The instruction is not ADD R0, R0, whose word is the end-of-program sentinel and which an
assembler must reject (R79, R83). -/
def Instr.notSentinel (i : Instr) : Bool := decide (i ≠ .add 0#6 0#6)

/-- An instruction that may stand in a program: it has an encoding, and that encoding is not the
sentinel (R78, R79, R204). -/
def Instr.wellFormed (i : Instr) : Bool := i.encodable && i.notSentinel

end Sys2Proof
end

