-- ==== Sys2Proof/Decode.lean ====
section
/-! DEFINITION. The sign-extender, the decoder and the encoder (30_encoding.md sections 1 to 4). The
decoder is a pure total function of one 16-bit word that rejects by name; the encoder is its inverse
on encodable instructions (R77). -/

namespace Sys2Proof

/-- The opcode field `w[15:12]` (R71). -/
def opcodeField (w : Word) : BitVec 4 := w.extractLsb' 12 4

/-- The field `rs = w[11:6]` (R71). -/
def rsField (w : Word) : RegIdx := w.extractLsb' 6 6

/-- The field `low = w[5:0]`: `rt` in R-format, `imm6` in I-format (R71). -/
def lowField (w : Word) : BitVec 6 := w.extractLsb' 0 6

/-- The sign-extender: `sext_16(imm6)`, bit 5 replicated into bits 15 to 6 (R74). -/
def signExtend6 (imm6 : BitVec 6) : WorkInt := imm6.signExtend Config.wlen

/-- `zext_16` of a 6-bit register index, the R-format `second` (R75). -/
def zeroExtend6 (rt : BitVec 6) : WorkInt := rt.setWidth Config.wlen

/-- The opcode map: the bit pattern of each opcode (R76). -/
def Opcode.toBits : Opcode → BitVec 4
  | .add => 0#4
  | .sub => 1#4
  | .mul => 2#4
  | .movi => 3#4
  | .beqz => 4#4
  | .andi => 5#4
  | .eor => 6#4
  | .br => 7#4
  | .sal => 8#4
  | .sar => 9#4
  | .ldr => 10#4
  | .str => 11#4

/-- The opcode whose bit pattern is the number `n` (R76). -/
def Opcode.ofNumber (n : Nat) : Option Opcode :=
  match n with
  | 0 => some .add
  | 1 => some .sub
  | 2 => some .mul
  | 3 => some .movi
  | 4 => some .beqz
  | 5 => some .andi
  | 6 => some .eor
  | 7 => some .br
  | 8 => some .sal
  | 9 => some .sar
  | 10 => some .ldr
  | 11 => some .str
  | _ => none

/-- The opcode map read the other way: the defined opcodes are those below `NOPCODES`; patterns 12 to 15
select no instruction (R76, R80). -/
def Opcode.ofBits (b : BitVec 4) : Option Opcode :=
  if b.toNat < Config.nopcodes then Opcode.ofNumber b.toNat else none

/-- The format of each opcode (R72, R73). -/
def Opcode.format : Opcode → Format
  | .add => .register
  | .sub => .register
  | .mul => .register
  | .movi => .immediate
  | .beqz => .immediate
  | .andi => .immediate
  | .eor => .register
  | .br => .register
  | .sal => .immediate
  | .sar => .immediate
  | .ldr => .immediate
  | .str => .immediate

/-- Why a word is rejected. -/
inductive DecodeError where
  /-- The opcode field is 12 to 15: `Invalid` (R75, R80). -/
  | invalidOpcode (op : BitVec 4)
  deriving DecidableEq, Repr

/-- The record that the spec's decoder returns (R75). -/
structure Decoded where
  opcode : Opcode
  fmt : Format
  rs : RegIdx
  second : WorkInt
  deriving DecidableEq, Repr

/-- `second`: the index `rt` zero-extended, or the sign-extended immediate (R75). -/
def secondOf (fmt : Format) (low : BitVec 6) : WorkInt :=
  match fmt with
  | .register => zeroExtend6 low
  | .immediate => signExtend6 low

/-- `Decode(w)`, the spec's decoder (R75). -/
def decodeFields (w : Word) : Except DecodeError Decoded :=
  match Opcode.ofBits (opcodeField w) with
  | none => .error (.invalidOpcode (opcodeField w))
  | some op =>
    .ok { opcode := op, fmt := op.format, rs := rsField w, second := secondOf op.format (lowField w) }

/-- The index `rt` of an R-format instruction, `second[5:0]` (40_pipeline.md R105). -/
def rtOfSecond (second : WorkInt) : RegIdx := second.setWidth 6

/-- The instruction that an opcode, the index `rs` and `second` stand for (R75, R76). -/
def instrOf (op : Opcode) (rs : RegIdx) (second : WorkInt) : Instr :=
  match op with
  | .add => .add rs (rtOfSecond second)
  | .sub => .sub rs (rtOfSecond second)
  | .mul => .mul rs (rtOfSecond second)
  | .movi => .movi rs second
  | .beqz => .beqz rs second
  | .andi => .andi rs second
  | .eor => .eor rs (rtOfSecond second)
  | .br => .br rs (rtOfSecond second)
  | .sal => .sal rs second
  | .sar => .sar rs second
  | .ldr => .ldr rs second
  | .str => .str rs second

/-- The instruction a decoder record stands for. -/
def Decoded.instr (c : Decoded) : Instr := instrOf c.opcode c.rs c.second

/-- The instruction that a word stands for, or why it is rejected. The word `0x0000` decodes as
ADD R0, R0 (R75), although Fetch never lets it reach the decoder (R79). -/
def decode (w : Word) : Except DecodeError Instr :=
  match decodeFields w with
  | .ok c => .ok c.instr
  | .error e => .error e

/-- The opcode of an instruction (R76). -/
def Instr.opcode : Instr → Opcode
  | .add _ _ => .add
  | .sub _ _ => .sub
  | .mul _ _ => .mul
  | .movi _ _ => .movi
  | .beqz _ _ => .beqz
  | .andi _ _ => .andi
  | .eor _ _ => .eor
  | .br _ _ => .br
  | .sal _ _ => .sal
  | .sar _ _ => .sar
  | .ldr _ _ => .ldr
  | .str _ _ => .str

/-- The first register operand of an instruction (R71). -/
def Instr.rs : Instr → RegIdx
  | .add rs _ => rs
  | .sub rs _ => rs
  | .mul rs _ => rs
  | .movi rs _ => rs
  | .beqz rs _ => rs
  | .andi rs _ => rs
  | .eor rs _ => rs
  | .br rs _ => rs
  | .sal rs _ => rs
  | .sar rs _ => rs
  | .ldr rs _ => rs
  | .str rs _ => rs

/-- `trunc_6` of an immediate (R77). -/
def imm6Of (imm : WorkInt) : BitVec 6 := imm.setWidth 6

/-- The field `f` of the encoding: `rt`, or `trunc_6` of the immediate (R77). -/
def Instr.low : Instr → BitVec 6
  | .add _ rt => rt
  | .sub _ rt => rt
  | .mul _ rt => rt
  | .movi _ imm => imm6Of imm
  | .beqz _ imm => imm6Of imm
  | .andi _ imm => imm6Of imm
  | .eor _ rt => rt
  | .br _ rt => rt
  | .sal _ imm => imm6Of imm
  | .sar _ imm => imm6Of imm
  | .ldr _ imm => imm6Of imm
  | .str _ imm => imm6Of imm

/-- `Enc(op, rs, f) = {op[3:0], rs[5:0], f[5:0]}` (R77). -/
def encodeFields (op : BitVec 4) (rs : RegIdx) (f : BitVec 6) : Word := op ++ rs ++ f

/-- The word of an instruction (R77). -/
def encode (i : Instr) : Word := encodeFields i.opcode.toBits i.rs i.low

/-- The instruction word made of the first `nbits` bits of `w`; the bits above are 0. -/
def tableWord (nbits w : Nat) : Word := BitVec.ofNat Config.ilen (w % 2 ^ nbits)

/-- The instruction that the decoder reads from the opcode table's word `w` of `nbits` bits; every
instruction is one 16-bit word (R70). -/
def decodeTableWord (nbits w : Nat) : Option Instr :=
  match decode (tableWord nbits w) with
  | .ok i => some i
  | .error _ => none

end Sys2Proof
end

