-- ==== Sys2Proof/Machine/State.lean ====
section
/-! DEFINITION. The state a model steps: the core state of 10_state.md R20 together with the
instruction memory and the data memory (20_memory.md R50), the ways a step can stop, and the state
after reset (70_reset_and_hazards.md R200). -/

namespace Sys2Proof.Machine

/-- A sparse memory of `w`-bit units: (address, value) pairs in the canonical form `Memory.wf`
(Ops.lean). An address that is not listed reads as 0 (R52, R53). -/
abbrev Memory (w : Nat) := List (Nat × BitVec w)

/-- The status register `SR`: five independent one-bit flags (R26). -/
structure StatusRegister where
  /-- Zero. -/
  z : Bool
  /-- Negative. -/
  n : Bool
  /-- Carry. -/
  c : Bool
  /-- Overflow. -/
  v : Bool
  /-- Sign. -/
  s : Bool
  deriving DecidableEq, Repr

/-- The fields of an Occupied Fetch-to-Decode latch `FL` (R28). -/
structure FetchLatch where
  /-- The instruction word. -/
  raw : Word
  /-- The instruction-memory address it was read from. -/
  fetchPC : WorkInt
  deriving DecidableEq, Repr

/-- The fields of an Occupied Decode-to-Execute latch `DL` (R29). The opcode is one of the twelve
(R118 (e)); its 4-bit value is `Opcode.toBits`. -/
structure DecodeLatch where
  /-- The instruction word. -/
  raw : Word
  /-- The `fetchPC` of the word. -/
  instrPC : WorkInt
  opcode : Opcode
  rs : RegIdx
  /-- R-format: `zext_16(rt)`. I-format: the immediate. -/
  second : WorkInt
  /-- `x[rs]` read at decode. -/
  sourceValue : Byte
  /-- R-format: `zext_16(x[rt])` read at decode. I-format: the immediate. -/
  secondValue : WorkInt
  deriving DecidableEq, Repr

/-- The fault record of a decode fault: the address and the word of the instruction (R31). -/
structure FaultRecord where
  pc : WorkInt
  word : Word
  deriving DecidableEq, Repr

/-- The whole state of the system: the seven elements of R20, then the two memories (R50). -/
structure State where
  /-- The general registers `x[0..63]`, `NREGS` of them (R21). -/
  x : Vector Byte Config.nregs
  /-- The status register (R26). -/
  sr : StatusRegister
  /-- The program counter: the address of the next word Fetch will read (R32). -/
  pc : WorkInt
  /-- `FL`: `none` is Empty (R28). -/
  fl : Option FetchLatch
  /-- `DL`: `none` is Empty (R29). -/
  dl : Option DecodeLatch
  /-- The stall counter, a 2-bit register that takes the values 0, 1 and 2 (R30). -/
  stall : BitVec 2
  /-- The fault record, `none` while no decode fault has been raised (R31). -/
  faulted : Option FaultRecord
  /-- The instruction memory: word address and instruction word (R51). -/
  im : Memory Config.ilen
  /-- The data memory: byte address and byte (R53). -/
  dm : List Host.Cell
  deriving DecidableEq, Repr

/-- The faults with which a step can stop. The one error of the core, the decode fault, is NOT
among them: it is taken as a next state that holds the fault record (R107, R113). -/
inductive Fault where
  /-- Raised by the cycle driver when a cycle of a core that is not faulted starts with the stall
  counter above `STALL_DEPTH`, that is at 3, a value no rule sets: the malformed stall state of R189 and item I8, which a model may
  assert and must not give a meaning. Safe: no state that a run reaches has it (R118 (d)). -/
  | malformedStall
  deriving DecidableEq, Repr

/-- The refusals with which a step can stop. -/
inductive Refusal where
  /-- Reserved for an arm of `exec` whose instruction has no meaning yet. No arm answers it: all twelve
  instructions are modelled. It would be safe. -/
  | notModelled (mnemonic : String)
  deriving DecidableEq, Repr

/-- All five flags 0 (R26). -/
def StatusRegister.zero : StatusRegister :=
  { z := false, n := false, c := false, v := false, s := false }

/-- The machine right after reset with no program supplied to the loader (R200; R52 gives the zeros of
the instruction memory): every value is the spec's. -/
def State.reset : State where
  x := Vector.replicate Config.nregs 0#Config.xlen
  sr := StatusRegister.zero
  pc := 0#Config.wlen
  fl := none
  dl := none
  stall := 0#2
  faulted := none
  im := []
  dm := []

end Sys2Proof.Machine
end

