-- ==== Sys2Proof/Machine/Ops.lean ====
section
/-! DEFINITION. The named operations over the state: memory accesses (20_memory.md R51 to R55),
register reads and writes (10_state.md R21 to R25), the control transfer (40_pipeline.md R110), taking
the decode fault (R107), and reset, which is the only return from it (60_exceptions.md R184,
70_reset_and_hazards.md R202). -/

namespace Sys2Proof.Machine

/-- What the memory holds at an address; an address that is not listed reads as 0 (R52, R53). -/
def Memory.read {w : Nat} : Memory w → Nat → BitVec w
  | [], _ => 0#w
  | (k, v) :: m, a => if k = a then v else Memory.read m a

/-- The memory with `v` at address `a`, in canonical form: a write of 0 leaves no entry. -/
def Memory.write {w : Nat} : Memory w → Nat → BitVec w → Memory w
  | [], a, v => if v = 0#w then [] else [(a, v)]
  | (k, u) :: m, a, v =>
    if a < k then
      if v = 0#w then (k, u) :: m else (a, v) :: (k, u) :: m
    else if a = k then
      if v = 0#w then m else (a, v) :: m
    else (k, u) :: Memory.write m a v

/-- Every address is at least `lo` and below `size`, addresses rise strictly, and no entry is 0. -/
def Memory.wfFrom {w : Nat} (size : Nat) : Nat → Memory w → Bool
  | _, [] => true
  | lo, (k, v) :: m =>
    decide (lo ≤ k) && decide (k < size) && decide (v ≠ 0#w) && Memory.wfFrom size (k + 1) m

/-- The canonical form of a memory of `size` units: equal contents are equal lists. -/
def Memory.wf {w : Nat} (size : Nat) (m : Memory w) : Bool := Memory.wfFrom size 0 m

/-- `IMemRead(a)`, applied only below `IMEM_WORDS` (R51). -/
def imemRead (im : Memory Config.ilen) (a : WorkInt) : Word := Memory.read im a.toNat

/-- The instruction address is below `IMEM_WORDS`: Fetch may read there (R33, R101). -/
def fetchable (a : WorkInt) : Bool := decide (a.toNat < Config.imemWords)

/-- `MemRead(a, 1)`: out of range reads `0x00` and raises nothing (R54). -/
def dmemRead (dm : List Host.Cell) (a : WorkInt) : Byte :=
  if a.toNat < Config.dmemBytes then Memory.read dm a.toNat else 0#Config.xlen

/-- `MemWrite(a, 1, v)`: out of range does nothing and raises nothing (R55). -/
def dmemWrite (dm : List Host.Cell) (a : WorkInt) (v : Byte) : List Host.Cell :=
  if a.toNat < Config.dmemBytes then Memory.write dm a.toNat v else dm

/-- Every 6-bit index names one of the `NREGS` registers (R21). -/
theorem regIdx_lt (i : RegIdx) : i.toNat < Config.nregs := Nat.lt_of_lt_of_le i.isLt (by decide)

/-- `x[i]` (R21). Index 0 is an ordinary register (R24). -/
def State.reg (s : State) (i : RegIdx) : Byte := s.x[i.toNat]'(regIdx_lt i)

/-- `x[i] <- v` (R23). Index 0 is an ordinary register (R24). -/
def State.setReg (s : State) (i : RegIdx) (v : Byte) : State :=
  { s with x := s.x.set i.toNat v (regIdx_lt i) }

/-- `SR <- sr` (R26). -/
def State.setFlags (s : State) (sr : StatusRegister) : State := { s with sr := sr }

/-- `DM` after `MemWrite(a, 1, v)` (R55). -/
def State.store (s : State) (a : WorkInt) (v : Byte) : State := { s with dm := dmemWrite s.dm a v }

/-- A control transfer to `t`: `pc <- t`, both latches emptied, `stall <- STALL_DEPTH` (R110). -/
def State.transferTo (s : State) (t : WorkInt) : State :=
  { s with pc := t, fl := none, dl := none, stall := BitVec.ofNat 2 Config.stallDepth }

/-- Taking the one exception, the decode fault: the address and the word are recorded and nothing else
changes; `pc` and `FL` stay, and no handler is entered (R107, R181, R184). -/
def State.takeDecodeFault (s : State) (pcOfWord : WorkInt) (word : Word) : State :=
  { s with faulted := some { pc := pcOfWord, word := word } }

/-- Reset of the core state and the data memory; the instruction memory is unchanged. It is the only
way out of the faulted state (R184, R202). -/
def State.resetCore (s : State) : State := { State.reset with im := s.im }

end Sys2Proof.Machine
end

