-- ==== Sys2Proof/Machine/Operands.lean ====
section
/-! DEFINITION. Where an instruction's operands come from. Decode copies them into the
Decode-to-Execute latch (10_state.md R22, R29; 40_pipeline.md R105, R106) and Execute reads only that
latch (R108): `a = sourceValue`, `b = secondValue` (41_alu.md R130). -/

namespace Sys2Proof.Machine

/-- `zext_16` of a register value (R105). -/
def zeroExtend8 (v : Byte) : WorkInt := v.setWidth Config.wlen

/-- The `secondValue` that Decode puts in the latch: `zext_16(x[rt])`, or the immediate (R105, R106). -/
def secondValueAt (s : State) (fmt : Format) (second : WorkInt) : WorkInt :=
  match fmt with
  | .register => zeroExtend8 (s.reg (rtOfSecond second))
  | .immediate => second

/-- The latch Decode fills for the word `raw` fetched from `pc`, with the register values of `s`
(R105). -/
def latchOf (s : State) (raw : Word) (pc : WorkInt) (c : Decoded) : DecodeLatch where
  raw := raw
  instrPC := pc
  opcode := c.opcode
  rs := c.rs
  second := c.second
  sourceValue := s.reg c.rs
  secondValue := secondValueAt s c.fmt c.second

/-- The instruction that the latch holds, from its fields `opcode`, `rs` and `second` (R109). -/
def DecodeLatch.instr (d : DecodeLatch) : Instr := instrOf d.opcode d.rs d.second

/-- The operand `a`, 8 bits (R130). -/
def DecodeLatch.a (d : DecodeLatch) : Byte := d.sourceValue

/-- The operand `b`, 16 bits (R130). -/
def DecodeLatch.b (d : DecodeLatch) : WorkInt := d.secondValue

/-- `b[7:0]` (R130). -/
def lowByte (b : WorkInt) : Byte := b.setWidth Config.xlen

/-- The shift amount `n = u(b)` (R143). -/
def shiftAmount (b : WorkInt) : Nat := b.toNat

/-- The effective address of LDR and STR, `ea = b` (42_load_store.md R160). -/
def effectiveAddress (b : WorkInt) : WorkInt := b

/-- The target of a taken BEQZ, `trunc_16(u(instrPC) + 1 + s(b))` (43_control_transfer.md R171). -/
def beqzTarget (instrPC b : WorkInt) : WorkInt :=
  BitVec.ofInt Config.wlen ((instrPC.toNat : Int) + 1 + b.toInt)

/-- The target of BR, `{a, b[7:0]}`: both bytes unsigned, `a` the high one (R172). -/
def brTarget (a : Byte) (b : WorkInt) : WorkInt := (a ++ lowByte b).setWidth Config.wlen

/-- Execute performs the rule of the instruction in `DL` by `rule` when `DL` is Occupied, and does
nothing when it is Empty (R108). No instruction's rule can stop the machine. -/
def executing (s : State) (rule : DecodeLatch → State) : Host.Outcome State Fault Refusal :=
  match s.dl with
  | some d => .next (rule d)
  | none => .next s

end Sys2Proof.Machine
end

