-- ==== Sys2Proof/Machine/Flags.lean ====
section
/-! DEFINITION. The flag-generation logic (41_alu.md R131 to R136). Every flag is computed from the
8-bit result `r` and the 8-bit operands, except C, which is defined on the widened sum or difference;
a flag that an instruction does not write keeps its value. -/

namespace Sys2Proof.Machine

/-- `SR.Z <- (r == 0x00)` (R131). -/
def zeroFlag (r : Byte) : Bool := decide (r = 0#Config.xlen)

/-- `SR.N <- r[7]` (R131). -/
def negativeFlag (r : Byte) : Bool := r.getLsbD (Config.xlen - 1)

/-- Carry of ADD: the exact unsigned sum does not fit 8 bits (R132). -/
def addCarry (a b : Byte) : Bool := decide (2 ^ Config.xlen ≤ a.toNat + b.toNat)

/-- Carry of SUB: the borrow (R133). -/
def subCarry (a b : Byte) : Bool := decide (a.toNat < b.toNat)

/-- An exact signed result lies outside -128 to 127, the range of `XLEN` bits (R134). -/
def outsideSigned (i : Int) : Bool :=
  decide (i < -(2 ^ (Config.xlen - 1))) || decide (2 ^ (Config.xlen - 1) ≤ i)

/-- Overflow of ADD (R134). -/
def addOverflow (a b : Byte) : Bool := outsideSigned (a.toInt + b.toInt)

/-- Overflow of SUB, by the exact signed difference (R134, 90_conflicts.md C3). -/
def subOverflow (a b : Byte) : Bool := outsideSigned (a.toInt - b.toInt)

/-- The flags after ADD or SUB: all five are written, and S is N xor V (R131 to R135). -/
def arithFlags (r : Byte) (carry overflow : Bool) : StatusRegister where
  z := zeroFlag r
  n := negativeFlag r
  c := carry
  v := overflow
  s := xor (negativeFlag r) overflow

/-- The flags after MUL, ANDI, EOR, SAL or SAR: Z and N are written; C, V and S are kept (R136). -/
def logicFlags (old : StatusRegister) (r : Byte) : StatusRegister :=
  { old with z := zeroFlag r, n := negativeFlag r }

end Sys2Proof.Machine
end

