-- ==== Sys2Proof/Machine/Alu.lean ====
section
/-! DEFINITION. The eight ALU instructions (41_alu.md R137 to R145): their 8-bit results as functions of
`a` and `b`, and their meanings. Each writes `x[rs]` and its flags and changes nothing else (R130).
The second operand of an instruction (`rt` or the immediate) reaches Execute as the value
`b = secondValue` of the latch, so the meanings do not read it from the syntax (R108). -/

namespace Sys2Proof.Machine

/-- `trunc_8(u(a) + u(b[7:0]))` (R137). -/
def addResult (a : Byte) (b : WorkInt) : Byte := BitVec.ofNat Config.xlen (a.toNat + (lowByte b).toNat)

/-- `trunc_8(u(a) - u(b[7:0]))` (R138). -/
def subResult (a : Byte) (b : WorkInt) : Byte :=
  BitVec.ofInt Config.xlen ((a.toNat : Int) - ((lowByte b).toNat : Int))

/-- `trunc_8(u(a) * u(b[7:0]))` (R139). -/
def mulResult (a : Byte) (b : WorkInt) : Byte := BitVec.ofNat Config.xlen (a.toNat * (lowByte b).toNat)

/-- `b[7:0]` (R140). -/
def moviResult (b : WorkInt) : Byte := lowByte b

/-- `a & b[7:0]` (R141). -/
def andiResult (a : Byte) (b : WorkInt) : Byte := a &&& lowByte b

/-- `a ^ b[7:0]` (R142). -/
def eorResult (a : Byte) (b : WorkInt) : Byte := a ^^^ lowByte b

/-- `n >= 8` gives `0x00`; otherwise `trunc_8(u(a) * 2^n)` (R143, R144). -/
def salResult (a : Byte) (b : WorkInt) : Byte :=
  if Config.xlen ≤ shiftAmount b then 0x00#Config.xlen
  else BitVec.ofNat Config.xlen (a.toNat * 2 ^ shiftAmount b)

/-- `n >= 8` gives the sign fill; otherwise `trunc_8(floor(s(a) / 2^n))` (R143, R145). -/
def sarResult (a : Byte) (b : WorkInt) : Byte :=
  if Config.xlen ≤ shiftAmount b then
    (if a.getLsbD (Config.xlen - 1) then BitVec.allOnes Config.xlen else 0x00#Config.xlen)
  else BitVec.ofInt Config.xlen (a.toInt / 2 ^ shiftAmount b)

/-- Write the result `r` of ADD or SUB and all five flags. -/
def writeArith (s : State) (rs : RegIdx) (r : Byte) (carry overflow : Bool) : State :=
  (s.setReg rs r).setFlags (arithFlags r carry overflow)

/-- Write the result `r` of MUL, ANDI, EOR, SAL or SAR and the flags Z and N. -/
def writeLogic (s : State) (rs : RegIdx) (r : Byte) : State :=
  (s.setReg rs r).setFlags (logicFlags s.sr r)

/-- ADD Rs, Rt (R137). -/
def execAdd (rs _rt : RegIdx) (s : State) : Host.Outcome State Fault Refusal :=
  executing s fun d =>
    writeArith s rs (addResult d.a d.b) (addCarry d.a (lowByte d.b)) (addOverflow d.a (lowByte d.b))

/-- SUB Rs, Rt (R138). -/
def execSub (rs _rt : RegIdx) (s : State) : Host.Outcome State Fault Refusal :=
  executing s fun d =>
    writeArith s rs (subResult d.a d.b) (subCarry d.a (lowByte d.b)) (subOverflow d.a (lowByte d.b))

/-- MUL Rs, Rt (R139). -/
def execMul (rs _rt : RegIdx) (s : State) : Host.Outcome State Fault Refusal :=
  executing s fun d => writeLogic s rs (mulResult d.a d.b)

/-- MOVI Rs, imm: no flag is written (R140, R136). -/
def execMovi (rs : RegIdx) (_imm : WorkInt) (s : State) : Host.Outcome State Fault Refusal :=
  executing s fun d => s.setReg rs (moviResult d.b)

/-- ANDI Rs, imm (R141). -/
def execAndi (rs : RegIdx) (_imm : WorkInt) (s : State) : Host.Outcome State Fault Refusal :=
  executing s fun d => writeLogic s rs (andiResult d.a d.b)

/-- EOR Rs, Rt (R142). -/
def execEor (rs _rt : RegIdx) (s : State) : Host.Outcome State Fault Refusal :=
  executing s fun d => writeLogic s rs (eorResult d.a d.b)

/-- SAL Rs, imm (R144). -/
def execSal (rs : RegIdx) (_imm : WorkInt) (s : State) : Host.Outcome State Fault Refusal :=
  executing s fun d => writeLogic s rs (salResult d.a d.b)

/-- SAR Rs, imm (R145). -/
def execSar (rs : RegIdx) (_imm : WorkInt) (s : State) : Host.Outcome State Fault Refusal :=
  executing s fun d => writeLogic s rs (sarResult d.a d.b)

end Sys2Proof.Machine
end

