-- ==== Sys2Proof/Machine/LoadStore.lean ====
section
/-! DEFINITION. The two memory instructions (42_load_store.md R160 to R163): one absolute addressing
mode, one byte per access, no flag written, no exception. -/

namespace Sys2Proof.Machine

/-- LDR Rs, imm: `x[rs] <- MemRead(ea, 1)` (R161). -/
def execLdr (rs : RegIdx) (_imm : WorkInt) (s : State) : Host.Outcome State Fault Refusal :=
  executing s fun d => s.setReg rs (dmemRead s.dm (effectiveAddress d.b))

/-- STR Rs, imm: `MemWrite(ea, 1, a)`; no register is written (R162). -/
def execStr (_rs : RegIdx) (_imm : WorkInt) (s : State) : Host.Outcome State Fault Refusal :=
  executing s fun d => s.store (effectiveAddress d.b) d.a

end Sys2Proof.Machine
end

