-- ==== Sys2Proof/Machine/ControlTransfer.lean ====
section
/-! DEFINITION. The two control-transfer instructions (43_control_transfer.md R170 to R175). Neither
writes a register or a flag, and no target is a fault. -/

namespace Sys2Proof.Machine

/-- BEQZ Rs, imm: a control transfer to `instrPC + 1 + s(imm)` when `a == 0x00`; otherwise no effect,
no flush and no stall (R171, R173). -/
def execBeqz (_rs : RegIdx) (_imm : WorkInt) (s : State) : Host.Outcome State Fault Refusal :=
  executing s fun d => if d.a = 0x00#Config.xlen then s.transferTo (beqzTarget d.instrPC d.b) else s

/-- BR Rs, Rt: always a control transfer to `{a, b[7:0]}` (R172). -/
def execBr (_rs _rt : RegIdx) (s : State) : Host.Outcome State Fault Refusal :=
  executing s fun d => s.transferTo (brTarget d.a d.b)

end Sys2Proof.Machine
end

