-- ==== Sys2Proof/Machine/Dispatch.lean ====
section
/-! DEFINITION. Execute's dispatch, one arm per opcode and no default arm (40_pipeline.md R109). -/

namespace Sys2Proof.Machine

/-- The instruction `i` performed by the Execute stage, on the operands that the Decode-to-Execute latch
of `s` holds (R108, R109). Emptying the latch afterwards is the stage's (Pipeline.lean). -/
def exec (i : Instr) (s : State) : Host.Outcome State Fault Refusal :=
  match i with
  | .add rs rt => Sys2Proof.Machine.execAdd rs rt s
  | .sub rs rt => Sys2Proof.Machine.execSub rs rt s
  | .mul rs rt => Sys2Proof.Machine.execMul rs rt s
  | .movi rs imm => Sys2Proof.Machine.execMovi rs imm s
  | .beqz rs imm => Sys2Proof.Machine.execBeqz rs imm s
  | .andi rs imm => Sys2Proof.Machine.execAndi rs imm s
  | .eor rs rt => Sys2Proof.Machine.execEor rs rt s
  | .br rs rt => Sys2Proof.Machine.execBr rs rt s
  | .sal rs imm => Sys2Proof.Machine.execSal rs imm s
  | .sar rs imm => Sys2Proof.Machine.execSar rs imm s
  | .ldr rs imm => Sys2Proof.Machine.execLdr rs imm s
  | .str rs imm => Sys2Proof.Machine.execStr rs imm s

end Sys2Proof.Machine
end

