-- ==== Sys2Proof/Machine/Pipeline.lean ====
section
/-! DEFINITION. The three stage functions, the cycle driver, the control state machine and the halted
predicate (40_pipeline.md R100 to R117). The driver runs Execute, then Decode, then Fetch, and each
reads the state that the one before left (00_scope.md R14). -/

namespace Sys2Proof.Machine

/-- The core is in the faulted state (R31). -/
def State.isFaulted (s : State) : Bool := s.faulted.isSome

/-- The Execute stage: perform the instruction of an Occupied `DL`, then empty `DL` (R108). -/
def executeStage (s : State) : Host.Outcome State Fault Refusal :=
  match s.dl with
  | none => .next s
  | some d =>
    match exec d.instr s with
    | .next t => .next { t with dl := none }
    | .fault r => .fault r
    | .refused r => .refused r

/-- The Decode stage: with `FL` Occupied and no stall, decode, read the registers, fill `DL` and empty
`FL`; an invalid word takes the decode fault instead (R104 to R107). -/
def decodeStage (s : State) : State :=
  if s.stall = 0#2 then
    match s.fl with
    | none => s
    | some f =>
      match decodeFields f.raw with
      | .error _ => s.takeDecodeFault f.fetchPC f.raw
      | .ok c => { s with dl := some (latchOf s f.raw f.fetchPC c), fl := none }
  else s

/-- Fetch reads the instruction memory in this state: no stall, and `pc` below the bound (R101,
R103). -/
def fetchEnabled (s : State) : Bool := decide (s.stall = 0#2) && fetchable s.pc

/-- The Fetch stage: read the word at `pc`; the sentinel `0x0000` leaves `FL` as it is (Empty,
R118 (c)) and sets `pc` to `IMEM_WORDS`, any other word fills `FL` and increments `pc` (R101, R102, R103). -/
def fetchStage (s : State) : State :=
  if fetchEnabled s then
    if imemRead s.im s.pc = 0#Config.ilen then
      { s with pc := BitVec.ofNat Config.wlen Config.imemWords }
    else
      { s with fl := some { raw := imemRead s.im s.pc, fetchPC := s.pc }, pc := s.pc + 1#Config.wlen }
  else s

/-- The state Fetch meets: after Execute's and Decode's part of the cycle; a decode fault ends the
cycle before Fetch (R107, R111). -/
def finishCycle (s : State) : State :=
  let t := decodeStage s
  if t.isFaulted then t else fetchStage t

/-- A cycle of a stalled core: decrement `stall`, and empty both latches when it reaches 0 (R112). -/
def stallCountdown (s : State) : State :=
  if s.stall - 1#2 = 0#2 then { s with stall := 0#2, fl := none, dl := none }
  else { s with stall := s.stall - 1#2 }

/-- The stall counter holds a value that no rule sets: one above `STALL_DEPTH` (R30, R189). -/
def stallMalformed (s : State) : Bool := decide (Config.stallDepth < s.stall.toNat)

/-- One clock cycle, the cycle driver of R111. -/
def cycle (s : State) : Host.Outcome State Fault Refusal :=
  if s.isFaulted then .next s
  else if stallMalformed s then .fault .malformedStall
  else if s.stall = 0#2 then
    match executeStage s with
    | .next t => .next (finishCycle t)
    | .fault r => .fault r
    | .refused r => .refused r
  else .next (stallCountdown s)

/-- One rising edge of `clk` with the input `rst`: reset while `rst` is high, otherwise one cycle
(10_state.md R35, 70_reset_and_hazards.md R202). -/
def clockEdge (rst : Bool) (s : State) : Host.Outcome State Fault Refusal :=
  if rst then .next s.resetCore else cycle s

/-- The halted predicate: not faulted, `pc` at or above the bound, both latches Empty; the stall counter
is not read (R116). -/
def State.halted (s : State) : Bool :=
  s.faulted.isNone && decide (Config.imemWords ≤ s.pc.toNat) && s.fl.isNone && s.dl.isNone

/-- The four states of the control state machine (R114). -/
inductive ControlState where
  | run | stall2 | stall1 | fault
  deriving DecidableEq, Repr

/-- The control state; `none` for the malformed stall value 3, to which R114 gives no state. -/
def State.control (s : State) : Option ControlState :=
  if s.isFaulted then some .fault
  else if s.stall = 0#2 then some .run
  else if s.stall = 1#2 then some .stall1
  else if s.stall = 2#2 then some .stall2
  else none

/-- The target of the control transfer that Execute makes for the latch's instruction: a taken BEQZ or
any BR makes one, nothing else does (R110, R170). -/
def DecodeLatch.redirect (d : DecodeLatch) : Option WorkInt :=
  match d.opcode with
  | .beqz => if d.a = 0x00#Config.xlen then some (beqzTarget d.instrPC d.b) else none
  | .br => some (brTarget d.a d.b)
  | .add => none
  | .sub => none
  | .mul => none
  | .movi => none
  | .andi => none
  | .eor => none
  | .sal => none
  | .sar => none
  | .ldr => none
  | .str => none

end Sys2Proof.Machine
end

