-- ==== Sys2Proof/Machine/Boot.lean ====
section
/-! DEFINITION. How a program comes into the instruction memory: the loader's duty (20_memory.md R52,
70_reset_and_hazards.md R203, R204), and the placing of one word in the pipeline that the host's
`withFetchWord` asks for. -/

namespace Sys2Proof.Machine

/-- The image that holds word `k` of the list at address `start + k`, and 0 elsewhere (R52). -/
def imageFrom (start : Nat) : List Word → Memory Config.ilen
  | [] => []
  | w :: ws => if w = 0#Config.ilen then imageFrom (start + 1) ws else (start, w) :: imageFrom (start + 1) ws

/-- The loader: at most `IMEM_WORDS` words, word `k` at `IM[k]` and `0x0000` in every word after them;
a longer program is rejected before the core runs (R52, R204). -/
def State.load (s : State) (program : List Word) : Option State :=
  if program.length ≤ Config.imemWords then some { s with im := imageFrom 0 program } else none

/-- The boot sequence: the loader writes the program while the core is held in reset (R203). -/
def boot (program : List Word) : Option State := State.reset.load program

/-- The state in which the word `w` has just been fetched from `pc`: `w` lies in the instruction memory
there and in `FL`, `pc` is the next address, and the core is running with `DL` Empty. -/
def State.fetched (s : State) (w : Word) : State :=
  { s with
    im := if fetchable s.pc then Memory.write s.im s.pc.toNat w else s.im
    fl := some { raw := w, fetchPC := s.pc }
    pc := s.pc + 1#Config.wlen
    dl := none
    stall := 0#2
    faulted := none }

/-- The state in which the next cycle executes `w`: fetched from `pc`, then decoded in a cycle whose Fetch
reads the next address. An invalid word is left in `FL`, where the next cycle takes its decode fault. -/
def State.placed (s : State) (w : Word) : State :=
  match decodeFields w with
  | .ok _ => finishCycle (s.fetched w)
  | .error _ => s.fetched w

end Sys2Proof.Machine
end

