-- ==== Sys2Proof/Machine/Observe.lean ====
section
/-! DEFINITION. What leaves the core: the memory and status ports (10_state.md R35), the observation
snapshot (R37) and the per-cycle effect record (R38). None of it is state (R20): each is a function of
the state. A port that the spec calls valid only under an enable is an `Option`: `none` says that the
enable is 0, and then the model names no value for the port. -/

namespace Sys2Proof.Machine

/-- `obs_sreg`: `{C, V, N, S, Z}` in bits 4 to 0 (R27). -/
def StatusRegister.pack (r : StatusRegister) : BitVec Config.nflags :=
  BitVec.ofBool r.c ++ BitVec.ofBool r.v ++ BitVec.ofBool r.n ++ BitVec.ofBool r.s ++ BitVec.ofBool r.z

/-- `FL` as the snapshot presents it: occupancy, `raw`, `fetchPC`; 0 when Empty (R37). -/
structure FetchLatchView where
  occupied : Bool
  raw : Word
  fetchPC : WorkInt
  deriving DecidableEq, Repr

/-- `DL` as the snapshot presents it: occupancy and the seven fields of R29; 0 when Empty (R37). -/
structure DecodeLatchView where
  occupied : Bool
  raw : Word
  instrPC : WorkInt
  opcode : BitVec 4
  rs : RegIdx
  second : WorkInt
  sourceValue : Byte
  secondValue : WorkInt
  deriving DecidableEq, Repr

/-- The observation snapshot, with the status outputs of R35 (R37). -/
structure Observation where
  x : Vector Byte Config.nregs
  z : Bool
  n : Bool
  c : Bool
  v : Bool
  s : Bool
  sreg : BitVec Config.nflags
  pc : WorkInt
  fl : FetchLatchView
  dl : DecodeLatchView
  stall : BitVec 2
  halted : Bool
  fault : Bool
  /-- `fault_pc`, `faulted.pc` when `fault` (R35). -/
  faultPc : Option WorkInt
  /-- `fault_word`, `faulted.word` when `fault` (R35). -/
  faultWord : Option Word
  deriving DecidableEq, Repr

/-- `FL` in the snapshot (R37). -/
def viewFetchLatch : Option FetchLatch → FetchLatchView
  | some f => { occupied := true, raw := f.raw, fetchPC := f.fetchPC }
  | none => { occupied := false, raw := 0#Config.ilen, fetchPC := 0#Config.wlen }

/-- `DL` in the snapshot (R37). -/
def viewDecodeLatch : Option DecodeLatch → DecodeLatchView
  | some d =>
    { occupied := true, raw := d.raw, instrPC := d.instrPC, opcode := d.opcode.toBits, rs := d.rs,
      second := d.second, sourceValue := d.sourceValue, secondValue := d.secondValue }
  | none =>
    { occupied := false, raw := 0#Config.ilen, instrPC := 0#Config.wlen, opcode := 0#4, rs := 0#6, second := 0#Config.wlen,
      sourceValue := 0#Config.xlen, secondValue := 0#Config.wlen }

/-- The observation snapshot of a state (R37). -/
def observe (s : State) : Observation where
  x := s.x
  z := s.sr.z
  n := s.sr.n
  c := s.sr.c
  v := s.sr.v
  s := s.sr.s
  sreg := s.sr.pack
  pc := s.pc
  fl := viewFetchLatch s.fl
  dl := viewDecodeLatch s.dl
  stall := s.stall
  halted := s.halted
  fault := s.isFaulted
  faultPc := s.faulted.map FaultRecord.pc
  faultWord := s.faulted.map FaultRecord.word

/-- The instruction that the cycle from `s` executes: the one in `DL`, when the core is neither
faulted nor stalled (R111). -/
def executingLatch (s : State) : Option DecodeLatch :=
  if s.isFaulted then none else if s.stall = 0#2 then s.dl else none

/-- `imem_re` and `imem_addr = pc[9:0]` of the cycle from `s`: Fetch runs after Execute and Decode, and
only if neither a control transfer nor a decode fault came first (R35, R111). -/
def imemPort (s : State) : Option (BitVec 10) :=
  if s.isFaulted then none
  else if s.stall = 0#2 then
    match executeStage s with
    | .next t =>
      if (decodeStage t).isFaulted then none
      else if fetchEnabled (decodeStage t) then some ((decodeStage t).pc.extractLsb' 0 10) else none
    | .fault _ => none
    | .refused _ => none
  else none

/-- `dmem_re` and `dmem_addr`: an LDR is executing, with its full 16-bit address (R35, R163). -/
def dmemReadPort (s : State) : Option WorkInt :=
  match executingLatch s with
  | some d => if d.opcode = .ldr then some (effectiveAddress d.b) else none
  | none => none

/-- `dmem_we`, `dmem_addr` and `dmem_wdata`: an STR is executing (R35, R163). -/
def dmemWritePort (s : State) : Option (WorkInt × Byte) :=
  match executingLatch s with
  | some d => if d.opcode = .str then some (effectiveAddress d.b, d.a) else none
  | none => none

/-- The per-cycle effect record (R38). -/
structure EffectRecord where
  /-- `eff_reg_idx` and `eff_reg_val` when `eff_reg_we`. -/
  reg : Option (RegIdx × Byte)
  /-- `eff_mem_addr` and `eff_mem_val` when `eff_mem_we`: a byte actually written. -/
  mem : Option (BitVec 11 × Byte)
  /-- `eff_target` when `eff_redirect`. -/
  redirect : Option WorkInt
  /-- `eff_flags_we`, one bit per flag written, in the order of R27: C, V, N, S, Z in bits 4 to 0. -/
  flagsWe : BitVec Config.nflags
  deriving DecidableEq, Repr

/-- A cycle with no effect to report. -/
def EffectRecord.nothing : EffectRecord :=
  { reg := none, mem := none, redirect := none, flagsWe := 0#Config.nflags }

/-- The value that the latch's instruction writes to `x[rs]`, if it writes one (R23, R137 to R145,
R161). -/
def registerWrite (dm : List Host.Cell) (d : DecodeLatch) : Option Byte :=
  match d.opcode with
  | .add => some (addResult d.a d.b)
  | .sub => some (subResult d.a d.b)
  | .mul => some (mulResult d.a d.b)
  | .movi => some (moviResult d.b)
  | .andi => some (andiResult d.a d.b)
  | .eor => some (eorResult d.a d.b)
  | .sal => some (salResult d.a d.b)
  | .sar => some (sarResult d.a d.b)
  | .ldr => some (dmemRead dm (effectiveAddress d.b))
  | .beqz => none
  | .br => none
  | .str => none

/-- The flags that an opcode writes, as a mask in the order C, V, N, S, Z (R26). -/
def flagsWritten : Opcode → BitVec Config.nflags
  | .add => 0b11111#5
  | .sub => 0b11111#5
  | .mul => 0b00101#5
  | .andi => 0b00101#5
  | .eor => 0b00101#5
  | .sal => 0b00101#5
  | .sar => 0b00101#5
  | .movi => 0b00000#5
  | .beqz => 0b00000#5
  | .br => 0b00000#5
  | .ldr => 0b00000#5
  | .str => 0b00000#5

/-- The byte of data memory that the latch's instruction actually writes, if any (R38, R55). -/
def memoryWrite (d : DecodeLatch) : Option (BitVec 11 × Byte) :=
  if d.opcode = .str then
    if (effectiveAddress d.b).toNat < Config.dmemBytes then
      some ((effectiveAddress d.b).setWidth 11, d.a)
    else none
  else none

/-- The effect record of the cycle that starts in `s`; it is presented after that cycle (R38). -/
def cycleEffects (s : State) : EffectRecord :=
  match executingLatch s with
  | none => EffectRecord.nothing
  | some d =>
    { reg := (registerWrite s.dm d).map fun v => (d.rs, v)
      mem := memoryWrite d
      redirect := d.redirect
      flagsWe := flagsWritten d.opcode }

end Sys2Proof.Machine
end

