-- ==== Sys2Proof/Machine/Step.lean ====
section
/-! DEFINITION. One step of the model is one clock cycle (00_scope.md R7). -/

namespace Sys2Proof.Machine

/-- One clock cycle with `rst` low (R7, 40_pipeline.md R111). -/
def step (s : State) : Host.Outcome State Fault Refusal := cycle s

/-- `s` with the instruction word placed so that the very next step executes it (log entry 4). -/
def State.withFetchWord (s : State) (nbits w : Nat) : State := s.placed (tableWord nbits w)

end Sys2Proof.Machine
end

