-- ==== Sys2Proof/Safety.lean ====
section
/-! DEFINITION. The terms that claims about runs use: the pipeline invariants (40_pipeline.md R118), the
sequential machine that executes one instruction at a time (R120), and what it means for two states to
agree. The sequential machine is written from the instruction rules with the library's own bit-vector
operations, not with the definitions that the pipeline's meanings call. -/

namespace Sys2Proof

open Sys2Proof.Machine

/-! ## The pipeline invariants -/

/-- An instruction address as Fetch leaves it: where the word is the sentinel, `pc` becomes `IMEM_WORDS`
(R102); every other address stays. -/
def settle (im : Memory Config.ilen) (a : WorkInt) : WorkInt :=
  if a.toNat < Config.imemWords ∧ imemRead im a = 0#Config.ilen then BitVec.ofNat Config.wlen Config.imemWords else a

/-- `raw` is the word that the instruction memory holds at the fetchable address `a`, and it is not the
sentinel. -/
abbrev fetchedFrom (im : Memory Config.ilen) (a : WorkInt) (raw : Word) : Prop :=
  a.toNat < Config.imemWords ∧ imemRead im a = raw ∧ raw ≠ 0#Config.ilen

/-- The decoder's record from which the latch was filled (R75, R105). -/
def DecodeLatch.decoded (d : DecodeLatch) : Decoded :=
  { opcode := d.opcode, fmt := d.opcode.format, rs := d.rs, second := d.second }

/-- The latch is what Decode makes of its word, and the values in it are those that the register file
holds in `s` (R105, R120). -/
abbrev latchCurrent (s : State) (d : DecodeLatch) : Prop :=
  decodeFields d.raw = .ok (DecodeLatch.decoded d) ∧
  d = latchOf s d.raw d.instrPC (DecodeLatch.decoded d)

/-- The invariants of the core, over one state: R118, with what the latches hold (R28, R29, R107, R120)
and the canonical form of the two memories. -/
structure Inv (s : State) : Prop where
  /-- The memories are in canonical form, within their sizes (R51, R53). -/
  im_wf : Memory.wf Config.imemWords s.im = true
  dm_wf : Memory.wf Config.dmemBytes s.dm = true
  /-- The stall counter is 0, 1 or 2 (R118 (d)). -/
  stall_le : s.stall.toNat ≤ Config.stallDepth
  /-- While the counter is not 0, both latches are Empty (R118 (b)). -/
  stalled_empty : s.stall ≠ 0#2 → s.fl = none ∧ s.dl = none
  /-- An Occupied `FL` holds a word other than the sentinel (R118 (f)), fetched from its address, and `pc`
  is the next one (R101). -/
  fl_fetched : ∀ f ∈ s.fl, fetchedFrom s.im f.fetchPC f.raw ∧ s.pc = f.fetchPC + 1#Config.wlen
  /-- An Occupied `DL` holds a word fetched from its address, and the values it needs are current. -/
  dl_fetched : ∀ d ∈ s.dl, fetchedFrom s.im d.instrPC d.raw
  dl_current : ∀ d ∈ s.dl, latchCurrent s d
  /-- The instruction in `FL` is the one after the instruction in `DL`. -/
  in_order : ∀ d ∈ s.dl, ∀ f ∈ s.fl, f.fetchPC = d.instrPC + 1#Config.wlen
  /-- With only `DL` Occupied, Fetch has met the end of the program or of the memory. -/
  drained : ∀ d ∈ s.dl, s.fl = none → s.pc = settle s.im (d.instrPC + 1#Config.wlen)
  /-- A faulted core keeps the faulting word in `FL`, has an Empty `DL` and is not stalled (R107). -/
  fault_kept : ∀ r ∈ s.faulted, s.fl = some { raw := r.word, fetchPC := r.pc } ∧ s.dl = none ∧
    s.stall = 0#2 ∧ decodeFields r.word = .error (.invalidOpcode (opcodeField r.word))

/-- The core is in RUN with `d` in `DL`: the next cycle executes `d` (R111, R114). -/
abbrev Executes (s : State) (d : DecodeLatch) : Prop :=
  s.faulted = none ∧ s.stall = 0#2 ∧ s.dl = some d

/-! ## The sequential machine -/

/-- What one instruction at a time acts on: the registers, the flags, the data memory, and the address of
the next instruction. -/
structure Seq where
  x : Vector Byte Config.nregs
  sr : StatusRegister
  dm : List Host.Cell
  pc : WorkInt
  deriving DecidableEq, Repr

/-- `x[i]`. -/
def Seq.reg (m : Seq) (i : RegIdx) : Byte := m.x[i.toNat]'(regIdx_lt i)

/-- Write `r` to `x[rs]` and replace the flags; go to the next address. -/
def Seq.put (m : Seq) (rs : RegIdx) (r : Byte) (sr : StatusRegister) : Seq :=
  { m with x := m.x.set rs.toNat r (regIdx_lt rs), sr := sr, pc := m.pc + 1#Config.wlen }

/-- The flags Z and N of a result, the others kept (41_alu.md R136). -/
def Seq.zn (m : Seq) (r : Byte) : StatusRegister := { m.sr with z := r == 0#Config.xlen, n := r.msb }

/-- One instruction, at the address `m.pc`, on the register file itself (41_alu.md R137 to R145,
42_load_store.md R161 and R162, 43_control_transfer.md R171 and R172). -/
def Seq.perform (i : Instr) (m : Seq) : Seq :=
  match i with
  | .add rs rt =>
    let r := m.reg rs + m.reg rt
    let v := BitVec.saddOverflow (m.reg rs) (m.reg rt)
    m.put rs r { z := r == 0#Config.xlen, n := r.msb, c := BitVec.uaddOverflow (m.reg rs) (m.reg rt), v := v, s := r.msb != v }
  | .sub rs rt =>
    let r := m.reg rs - m.reg rt
    let v := BitVec.ssubOverflow (m.reg rs) (m.reg rt)
    m.put rs r { z := r == 0#Config.xlen, n := r.msb, c := BitVec.usubOverflow (m.reg rs) (m.reg rt), v := v, s := r.msb != v }
  | .mul rs rt => m.put rs (m.reg rs * m.reg rt) (m.zn (m.reg rs * m.reg rt))
  | .movi rs imm => m.put rs (imm.extractLsb' 0 Config.xlen) m.sr
  | .beqz rs imm => { m with pc := if m.reg rs = 0#Config.xlen then m.pc + 1#Config.wlen + imm else m.pc + 1#Config.wlen }
  | .andi rs imm => m.put rs (m.reg rs &&& imm.extractLsb' 0 Config.xlen) (m.zn (m.reg rs &&& imm.extractLsb' 0 Config.xlen))
  | .eor rs rt => m.put rs (m.reg rs ^^^ m.reg rt) (m.zn (m.reg rs ^^^ m.reg rt))
  | .br rs rt => { m with pc := (m.reg rs ++ m.reg rt).setWidth Config.wlen }
  | .sal rs imm => m.put rs (m.reg rs <<< imm.toNat) (m.zn (m.reg rs <<< imm.toNat))
  | .sar rs imm => m.put rs ((m.reg rs).sshiftRight imm.toNat) (m.zn ((m.reg rs).sshiftRight imm.toNat))
  | .ldr rs imm => m.put rs (dmemRead m.dm imm) m.sr
  | .str rs imm => { m with dm := dmemWrite m.dm imm (m.reg rs), pc := m.pc + 1#Config.wlen }

/-- One step of the sequential machine: it executes the instruction at `pc`, if there is one. At an
address outside the instruction memory, at the sentinel and at an invalid word it stays as it is. -/
def Seq.next (im : Memory Config.ilen) (m : Seq) : Seq :=
  if m.pc.toNat < Config.imemWords ∧ imemRead im m.pc ≠ 0#Config.ilen then
    match decode (imemRead im m.pc) with
    | .ok i => { Seq.perform i m with pc := settle im (Seq.perform i m).pc }
    | .error _ => m
  else m

/-- The address of the oldest instruction not yet executed: that in `DL`, else that in `FL`, else the
next to be fetched. -/
def oldestPC (s : State) : WorkInt :=
  match s.dl, s.fl with
  | some d, _ => d.instrPC
  | none, some f => f.fetchPC
  | none, none => s.pc

/-- The sequential machine's view of a state of the core: the instructions in flight have not happened. -/
def seqView (s : State) : Seq :=
  { x := s.x, sr := s.sr, dm := s.dm, pc := settle s.im (oldestPC s) }

/-- `k` steps of the sequential machine. -/
def Seq.run (im : Memory Config.ilen) : Nat → Seq → Seq
  | 0, m => m
  | k + 1, m => Seq.run im k (Seq.next im m)

/-- The state after `n` cycles from `s`, if no cycle stops with a fault or a refusal. -/
def afterCycles : Nat → State → Option State
  | 0, s => some s
  | n + 1, s =>
    match step s with
    | .next t => afterCycles n t
    | .fault _ => none
    | .refused _ => none

/-- How many instructions Execute performs in the `n` cycles from `s`. -/
def executedIn : Nat → State → Nat
  | 0, _ => 0
  | n + 1, s =>
    match step s with
    | .next t => (if (executingLatch s).isSome then 1 else 0) + executedIn n t
    | .fault _ => 0
    | .refused _ => 0

/-! ## Agreement of two states -/

/-- Every byte of the data memory and every word of the instruction memory reads the same. -/
def SameMemories (s t : State) : Prop :=
  (∀ a : Nat, Memory.read t.dm a = Memory.read s.dm a) ∧
  (∀ a : Nat, Memory.read t.im a = Memory.read s.im a)

/-- The pipeline's own state is the same: `pc`, both latches, the stall counter, the fault record. -/
def SamePipeline (s t : State) : Prop :=
  t.pc = s.pc ∧ t.fl = s.fl ∧ t.dl = s.dl ∧ t.stall = s.stall ∧ t.faulted = s.faulted

/-- Every register and every flag is the same. -/
def SameRegisters (s t : State) : Prop := (∀ j : RegIdx, t.reg j = s.reg j) ∧ t.sr = s.sr

/-- The frame of an instruction that writes `x[rs]` and perhaps flags: every other register, the
pipeline's own state and both memories are the same. -/
def OnlyRegister (rs : RegIdx) (s t : State) : Prop :=
  (∀ j : RegIdx, j ≠ rs → t.reg j = s.reg j) ∧ SamePipeline s t ∧ SameMemories s t

end Sys2Proof
end

