-- ==== Sys2Proof/Certificates/Slice0/Obligations.lean ====
section
/-! DEFINITION. The statements for the provers. Each docstring names the rule of spec/ that the statement
formalises, or says that it is derived or the model's own choice. `Executes s d` says that the core is in
RUN with `d` in `DL`; the operands of the instruction are `d.sourceValue` and `d.secondValue`. -/

open Sys2Proof Sys2Proof.Machine

/-! ## Encoding and decoding -/

/-- R77: every instruction whose operands have an encoding is read back from its word, and the word is
`u(op) * 4096 + u(rs) * 64 + u(f)`. -/
def Obligations.EncodeThenDecodeGivesInstruction : Prop :=
  ∀ i : Instr, i.encodable = true →
    decode (encode i) = .ok i ∧
    (encode i).toNat = i.opcode.toBits.toNat * 4096 + i.rs.toNat * 64 + i.low.toNat

/-- Derived from R71, R81 and R82: a word that decodes is the word of the instruction it decodes to, so no
bit of a valid word is dropped or ignored. -/
def Obligations.DecodeThenEncodeGivesWord : Prop :=
  ∀ (w : Word) (i : Instr), decode w = .ok i → i.encodable = true ∧ encode i = w

/-- R75: the decoder's whole record, for every word. -/
def Obligations.DecoderReturnsSpecRecord : Prop :=
  ∀ w : Word,
    (11 < (w.extractLsb' 12 4).toNat → decodeFields w = .error (.invalidOpcode (w.extractLsb' 12 4))) ∧
    ((w.extractLsb' 12 4).toNat ≤ 11 →
      ∃ c, decodeFields w = .ok c ∧ c.opcode.toBits = w.extractLsb' 12 4 ∧
        (c.fmt = .register ↔ (w.extractLsb' 12 4).toNat ∈ [0, 1, 2, 6, 7]) ∧
        c.rs = w.extractLsb' 6 6 ∧
        (c.fmt = .register → c.second = (w.extractLsb' 0 6).setWidth 16) ∧
        (c.fmt = .immediate → c.second = (w.extractLsb' 0 6).signExtend 16))

/-- Derived from R75 and R80: the words the decoder rejects are exactly `0xC000` to `0xFFFF`. -/
def Obligations.DecoderRejectsExactlyFromC000 : Prop :=
  ∀ w : Word, (∃ e, decode w = .error e) ↔ 0xC000 ≤ w.toNat

/-- R74: the sign-extender replicates bit 5 into bits 15 to 6, its range is -32 to 31, and every I-format
instruction uses it. -/
def Obligations.SignExtenderReplicatesBitFive : Prop :=
  (∀ v : BitVec 6,
    (∀ k, k < 6 → (signExtend6 v).getLsbD k = v.getLsbD k) ∧
    (∀ k, 6 ≤ k → k < 16 → (signExtend6 v).getLsbD k = v.getLsbD 5) ∧
    (signExtend6 v).toInt = v.toInt ∧ -32 ≤ (signExtend6 v).toInt ∧ (signExtend6 v).toInt ≤ 31) ∧
  (∀ (w : Word) (c : Decoded), decodeFields w = .ok c → c.fmt = .immediate →
    c.second = signExtend6 (w.extractLsb' 0 6))

/-- Derived from R72, R73 and R76 (words of 95_test_vectors.md part 2.1): one word of each family. -/
def Obligations.SpecWordsDecodeAsWritten : Prop :=
  decode 0x1FC1#16 = .ok (.sub 63#6 1#6) ∧ decode 0x3FFF#16 = .ok (.movi 63#6 0xFFFF#16) ∧
  decode 0x9060#16 = .ok (.sar 1#6 0xFFE0#16) ∧ decode 0xB7E0#16 = .ok (.str 31#6 0xFFE0#16) ∧
  decode 0x4042#16 = .ok (.beqz 1#6 2#16) ∧ decode 0x7105#16 = .ok (.br 4#6 5#6) ∧
  decode 0xC123#16 = .error (.invalidOpcode 12#4)

/-! ## A step runs the decoded instruction -/

/-- Derived from R108, R109 and R111: when `DL` holds what Decode makes of a word, and that word decodes to
`i`, the cycle performs `exec i`, empties `DL`, and goes on with Decode and Fetch. -/
def Obligations.StepRunsDecodedInstruction : Prop :=
  ∀ (s : State) (d : DecodeLatch) (i : Instr), Executes s d →
    decodeFields d.raw = .ok (DecodeLatch.decoded d) → decode d.raw = .ok i →
    ∃ t, exec i s = .next t ∧ step s = .next (finishCycle { t with dl := none })

/-- Derived from R101, R105, R111 and R210: the word at `pc` is fetched in one cycle and decoded in the
next, and then stands ready to execute with the operands the register file holds. -/
def Obligations.FetchedWordReachesExecute : Prop :=
  ∀ (s : State) (i : Instr), s.faulted = none → s.stall = 0#2 → s.fl = none → s.dl = none →
    s.pc.toNat < Config.imemWords → imemRead s.im s.pc ≠ 0#16 → decode (imemRead s.im s.pc) = .ok i →
    ∃ s₁ s₂ d, step s = .next s₁ ∧ step s₁ = .next s₂ ∧ Executes s₂ d ∧
      d.raw = imemRead s.im s.pc ∧ d.instrPC = s.pc ∧ d.instr = i ∧ d.sourceValue = s.reg i.rs ∧
      (i.opcode.format = .register → d.secondValue = (s.reg i.low).setWidth 16) ∧
      (i.opcode.format = .immediate → d.secondValue = i.low.signExtend 16) ∧
      s₂.x = s.x ∧ s₂.sr = s.sr ∧ s₂.dm = s.dm ∧ s₂.im = s.im

/-- R108, first clause, as the model extends it to `exec`: with an Empty `DL` the Execute stage does
nothing, and `exec` of any instruction leaves the state as it is (log entry 5). -/
def Obligations.ExecuteDoesNothingOnEmptyLatch : Prop :=
  ∀ s : State, s.dl = none → executeStage s = .next s ∧ ∀ i : Instr, exec i s = .next s

/-! ## The instructions: result, flags, frame, completion -/

/-- R137 with the flags of R131, R132, R134 and R135: ADD completes. -/
def Obligations.AddCompletesWithResultAndFlags : Prop :=
  ∀ (rs rt : RegIdx) (s : State) (d : DecodeLatch), s.dl = some d →
    encode (.add rs rt) = ((0b0000#4 ++ rs ++ rt : BitVec (4 + 6 + 6)) : Word) ∧
    ∃ t, exec (.add rs rt) s = .next t ∧ OnlyRegister rs s t ∧
      t.reg rs = BitVec.ofNat 8 (d.sourceValue.toNat + (d.secondValue.extractLsb' 0 8).toNat) ∧
      t.sr.z = decide (t.reg rs = 0#8) ∧ t.sr.n = (t.reg rs).getLsbD 7 ∧
      (t.sr.c = true ↔ 256 ≤ d.sourceValue.toNat + (d.secondValue.extractLsb' 0 8).toNat) ∧
      (t.sr.v = true ↔ d.sourceValue.toInt + (d.secondValue.extractLsb' 0 8).toInt < -128 ∨
        127 < d.sourceValue.toInt + (d.secondValue.extractLsb' 0 8).toInt) ∧
      (t.sr.s = true ↔ d.sourceValue.toInt + (d.secondValue.extractLsb' 0 8).toInt < 0)

/-- R138 with the flags of R131, R133, R134 and R135: SUB completes. -/
def Obligations.SubCompletesWithResultAndFlags : Prop :=
  ∀ (rs rt : RegIdx) (s : State) (d : DecodeLatch), s.dl = some d →
    encode (.sub rs rt) = ((0b0001#4 ++ rs ++ rt : BitVec (4 + 6 + 6)) : Word) ∧
    ∃ t, exec (.sub rs rt) s = .next t ∧ OnlyRegister rs s t ∧
      t.reg rs = BitVec.ofInt 8 (d.sourceValue.toNat - (d.secondValue.extractLsb' 0 8).toNat : Int) ∧
      t.sr.z = decide (t.reg rs = 0#8) ∧ t.sr.n = (t.reg rs).getLsbD 7 ∧
      (t.sr.c = true ↔ d.sourceValue.toNat < (d.secondValue.extractLsb' 0 8).toNat) ∧
      (t.sr.v = true ↔ d.sourceValue.toInt - (d.secondValue.extractLsb' 0 8).toInt < -128 ∨
        127 < d.sourceValue.toInt - (d.secondValue.extractLsb' 0 8).toInt) ∧
      (t.sr.s = true ↔ d.sourceValue.toInt - (d.secondValue.extractLsb' 0 8).toInt < 0)

/-- R139 with the flags of R131 and R136: MUL completes; the signed product has the same low byte. -/
def Obligations.MulCompletesWithLowByte : Prop :=
  ∀ (rs rt : RegIdx) (s : State) (d : DecodeLatch), s.dl = some d →
    encode (.mul rs rt) = ((0b0010#4 ++ rs ++ rt : BitVec (4 + 6 + 6)) : Word) ∧
    ∃ t, exec (.mul rs rt) s = .next t ∧ OnlyRegister rs s t ∧
      t.reg rs = BitVec.ofNat 8 (d.sourceValue.toNat * (d.secondValue.extractLsb' 0 8).toNat) ∧
      t.reg rs = BitVec.ofInt 8 (d.sourceValue.toInt * (d.secondValue.extractLsb' 0 8).toInt) ∧
      t.sr = { s.sr with z := decide (t.reg rs = 0#8), n := (t.reg rs).getLsbD 7 }

/-- R140: MOVI completes, writing the low byte of the immediate and no flag. The latch is as Decode leaves
it for an I-format word: its second value is the immediate (R106). -/
def Obligations.MoviCompletesWithImmediate : Prop :=
  ∀ (rs : RegIdx) (imm : WorkInt) (s : State) (d : DecodeLatch), s.dl = some d → d.secondValue = imm →
    encode (.movi rs imm) = ((0b0011#4 ++ rs ++ imm.extractLsb' 0 6 : BitVec (4 + 6 + 6)) : Word) ∧
    ∃ t, exec (.movi rs imm) s = .next t ∧ OnlyRegister rs s t ∧
      t.reg rs = imm.extractLsb' 0 8 ∧ t.sr = s.sr ∧
      (immInRange imm = true → t.reg rs = (imm.extractLsb' 0 6).signExtend 8)

/-- R141 with the flags of R131 and R136: ANDI completes. -/
def Obligations.AndiCompletesWithMaskedValue : Prop :=
  ∀ (rs : RegIdx) (imm : WorkInt) (s : State) (d : DecodeLatch), s.dl = some d → d.secondValue = imm →
    encode (.andi rs imm) = ((0b0101#4 ++ rs ++ imm.extractLsb' 0 6 : BitVec (4 + 6 + 6)) : Word) ∧
    ∃ t, exec (.andi rs imm) s = .next t ∧ OnlyRegister rs s t ∧
      (∀ k, k < 8 → (t.reg rs).getLsbD k = (d.sourceValue.getLsbD k && imm.getLsbD k)) ∧
      t.sr = { s.sr with z := decide (t.reg rs = 0#8), n := (t.reg rs).getLsbD 7 }

/-- R142 with the flags of R131 and R136: EOR completes. -/
def Obligations.EorCompletesWithExclusiveOr : Prop :=
  ∀ (rs rt : RegIdx) (s : State) (d : DecodeLatch), s.dl = some d →
    encode (.eor rs rt) = ((0b0110#4 ++ rs ++ rt : BitVec (4 + 6 + 6)) : Word) ∧
    ∃ t, exec (.eor rs rt) s = .next t ∧ OnlyRegister rs s t ∧
      (∀ k, k < 8 → (t.reg rs).getLsbD k = (d.sourceValue.getLsbD k ^^ d.secondValue.getLsbD k)) ∧
      t.sr = { s.sr with z := decide (t.reg rs = 0#8), n := (t.reg rs).getLsbD 7 }

/-- R144 with R143 and the flags of R131 and R136: SAL completes; zeros enter at bit 0, and an amount of 8
or more shifts every bit out. -/
def Obligations.SalCompletesWithLeftShift : Prop :=
  ∀ (rs : RegIdx) (imm : WorkInt) (s : State) (d : DecodeLatch), s.dl = some d → d.secondValue = imm →
    encode (.sal rs imm) = ((0b1000#4 ++ rs ++ imm.extractLsb' 0 6 : BitVec (4 + 6 + 6)) : Word) ∧
    ∃ t, exec (.sal rs imm) s = .next t ∧ OnlyRegister rs s t ∧
      (8 ≤ imm.toNat → t.reg rs = 0x00#8) ∧
      (imm.toNat < 8 → t.reg rs = BitVec.ofNat 8 (d.sourceValue.toNat * 2 ^ imm.toNat)) ∧
      (∀ k, k < 8 → (t.reg rs).getLsbD k = (decide (imm.toNat ≤ k) && d.sourceValue.getLsbD (k - imm.toNat))) ∧
      t.sr = { s.sr with z := decide (t.reg rs = 0#8), n := (t.reg rs).getLsbD 7 }

/-- R145 with R143 and the flags of R131 and R136: SAR completes; copies of bit 7 enter at bit 7, the result
rounds toward minus infinity, and an amount of 8 or more leaves the sign fill. -/
def Obligations.SarCompletesWithArithmeticShift : Prop :=
  ∀ (rs : RegIdx) (imm : WorkInt) (s : State) (d : DecodeLatch), s.dl = some d → d.secondValue = imm →
    encode (.sar rs imm) = ((0b1001#4 ++ rs ++ imm.extractLsb' 0 6 : BitVec (4 + 6 + 6)) : Word) ∧
    ∃ t, exec (.sar rs imm) s = .next t ∧ OnlyRegister rs s t ∧
      (8 ≤ imm.toNat → t.reg rs = if d.sourceValue.getLsbD 7 then 0xFF#8 else 0x00#8) ∧
      (imm.toNat < 8 → (t.reg rs).toInt = Int.fdiv d.sourceValue.toInt (2 ^ imm.toNat)) ∧
      (∀ k, k < 8 → (t.reg rs).getLsbD k = d.sourceValue.getLsbD (min 7 (k + imm.toNat))) ∧
      t.sr = { s.sr with z := decide (t.reg rs = 0#8), n := (t.reg rs).getLsbD 7 }

/-- R161 with R54: LDR completes for every address; out of range it loads `0x00`. -/
def Obligations.LdrCompletesWithLoadedByte : Prop :=
  ∀ (rs : RegIdx) (imm : WorkInt) (s : State) (d : DecodeLatch), s.dl = some d → d.secondValue = imm →
    encode (.ldr rs imm) = ((0b1010#4 ++ rs ++ imm.extractLsb' 0 6 : BitVec (4 + 6 + 6)) : Word) ∧
    ∃ t, exec (.ldr rs imm) s = .next t ∧ OnlyRegister rs s t ∧ t.sr = s.sr ∧
      (imm.toNat < Config.dmemBytes → t.reg rs = Memory.read s.dm imm.toNat) ∧
      (Config.dmemBytes ≤ imm.toNat → t.reg rs = 0x00#8)

/-- R162 with R55: STR completes for every address; it changes the addressed byte only, and no byte when
the address is out of range. -/
def Obligations.StrCompletesWithStoredByte : Prop :=
  ∀ (rs : RegIdx) (imm : WorkInt) (s : State) (d : DecodeLatch), s.dl = some d → d.secondValue = imm →
    Memory.wf Config.dmemBytes s.dm = true →
    encode (.str rs imm) = ((0b1011#4 ++ rs ++ imm.extractLsb' 0 6 : BitVec (4 + 6 + 6)) : Word) ∧
    ∃ t, exec (.str rs imm) s = .next t ∧ SameRegisters s t ∧ SamePipeline s t ∧ t.im = s.im ∧
      (imm.toNat < Config.dmemBytes →
        Memory.read t.dm (effectiveAddress imm).toNat = d.sourceValue ∧
        ∀ a : Nat, a ≠ (effectiveAddress imm).toNat → Memory.read t.dm a = Memory.read s.dm a) ∧
      (Config.dmemBytes ≤ imm.toNat → ∀ a : Nat, Memory.read t.dm a = Memory.read s.dm a)

/-- R171 with R110: BEQZ completes, taken and not taken; the target wraps modulo 2^16. -/
def Obligations.BeqzCompletesTakenAndNotTaken : Prop :=
  ∀ (rs : RegIdx) (imm : WorkInt) (s : State) (d : DecodeLatch), s.dl = some d → d.secondValue = imm →
    encode (.beqz rs imm) = ((0b0100#4 ++ rs ++ imm.extractLsb' 0 6 : BitVec (4 + 6 + 6)) : Word) ∧
    (d.sourceValue = 0x00#8 →
      ∃ t, exec (.beqz rs imm) s = .next t ∧ SameRegisters s t ∧ SameMemories s t ∧
        t.faulted = s.faulted ∧ t.pc = BitVec.ofInt 16 ((d.instrPC.toNat : Int) + 1 + imm.toInt) ∧
        t.fl = none ∧ t.dl = none ∧ t.stall = 2#2) ∧
    (d.sourceValue ≠ 0x00#8 → exec (.beqz rs imm) s = .next s)

/-- R172 with R110: BR completes, with the target `u(a) * 256 + u(x[rt])`. -/
def Obligations.BrCompletesWithBytePairTarget : Prop :=
  ∀ (rs rt : RegIdx) (s : State) (d : DecodeLatch), s.dl = some d →
    encode (.br rs rt) = ((0b0111#4 ++ rs ++ rt : BitVec (4 + 6 + 6)) : Word) ∧
    ∃ t, exec (.br rs rt) s = .next t ∧ SameRegisters s t ∧ SameMemories s t ∧ t.faulted = s.faulted ∧
      t.pc.toNat = d.sourceValue.toNat * 256 + (d.secondValue.extractLsb' 0 8).toNat ∧
      t.fl = none ∧ t.dl = none ∧ t.stall = 2#2

/-! ## Flags and registers over all instructions -/

/-- R132, R133, R134 and R135 in bits: C is bit 8 of the 9-bit sum or difference, V is the sign-bit
formula of each instruction, S is N xor V. -/
def Obligations.AddSubFlagsMatchBitFormulas : Prop :=
  ∀ (rs rt : RegIdx) (s t : State) (d : DecodeLatch), s.dl = some d →
    let a := d.sourceValue
    let b := d.secondValue.extractLsb' 0 8
    (exec (.add rs rt) s = .next t →
      t.sr.c = (a.setWidth 9 + b.setWidth 9).getLsbD 8 ∧
      t.sr.v = (a.getLsbD 7 == b.getLsbD 7 && (t.reg rs).getLsbD 7 != a.getLsbD 7) ∧
      t.sr.v = ((a.getLsbD 7 ^^ (t.reg rs).getLsbD 7) && (b.getLsbD 7 ^^ (t.reg rs).getLsbD 7)) ∧
      t.sr.s = (t.sr.n ^^ t.sr.v)) ∧
    (exec (.sub rs rt) s = .next t →
      t.sr.c = (a.setWidth 9 - b.setWidth 9).getLsbD 8 ∧
      t.sr.v = (a.getLsbD 7 != b.getLsbD 7 && (t.reg rs).getLsbD 7 != a.getLsbD 7) ∧
      t.sr.s = (t.sr.n ^^ t.sr.v))

/-- R131: Z and N, for every instruction that writes them. -/
def Obligations.ZeroAndNegativeFollowResult : Prop :=
  ∀ (i : Instr) (s t : State) (d : DecodeLatch), s.dl = some d → exec i s = .next t →
    i.opcode ∈ [Opcode.add, .sub, .mul, .andi, .eor, .sal, .sar] →
    (t.sr.z = true ↔ t.reg i.rs = 0x00#8) ∧ t.sr.n = (t.reg i.rs).getLsbD 7

/-- R136: a flag that an instruction does not write keeps its value. -/
def Obligations.UnwrittenFlagsAreKept : Prop :=
  ∀ (i : Instr) (s t : State), exec i s = .next t →
    (i.opcode ∈ [Opcode.mul, .andi, .eor, .sal, .sar] →
      t.sr.c = s.sr.c ∧ t.sr.v = s.sr.v ∧ t.sr.s = s.sr.s) ∧
    (i.opcode ∈ [Opcode.movi, .ldr, .str, .beqz, .br] → t.sr = s.sr)

/-- R23 and R22, over a whole cycle: a register changes only when it is the `rs` of an instruction in
Execute that writes one. -/
def Obligations.OnlyExecuteWritesOneRegister : Prop :=
  ∀ (s t : State), step s = .next t → ∀ j : RegIdx, t.reg j ≠ s.reg j →
    ∃ d, Executes s d ∧ d.rs = j ∧
      d.opcode ∈ [Opcode.add, .sub, .mul, .movi, .andi, .eor, .sal, .sar, .ldr]

/-- R24: every register, R0 among them, reads 0 until written, then the value last written to it, and a
write changes no other register. -/
def Obligations.RegisterZeroIsOrdinary : Prop :=
  (∀ i : RegIdx, State.reset.reg i = 0x00#8) ∧
  (∀ (s : State) (i j : RegIdx) (v : Byte), (s.setReg i v).reg j = if j = i then v else s.reg j)

/-! ## Stages and the cycle driver -/

/-- R101 and R103, with the sentinel of R102, over every state that Fetch meets. -/
def Obligations.FetchReadsWordOrSentinel : Prop :=
  ∀ s : State,
    (s.stall = 0#2 → s.pc.toNat < Config.imemWords → imemRead s.im s.pc ≠ 0#16 →
      fetchStage s =
        { s with fl := some { raw := imemRead s.im s.pc, fetchPC := s.pc }, pc := s.pc + 1#16 }) ∧
    (s.stall = 0#2 → s.pc.toNat < Config.imemWords → imemRead s.im s.pc = 0#16 →
      fetchStage s = { s with pc := 1024#16 }) ∧
    (s.stall ≠ 0#2 ∨ Config.imemWords ≤ s.pc.toNat → fetchStage s = s)

/-- R119, and R105 for a valid word: in a cycle whose Execute makes no control transfer, Decode fills `DL` from `FL`
with the register values that this cycle's Execute left. -/
def Obligations.DecodeReadsSameCycleWrites : Prop :=
  ∀ (s t : State) (f : FetchLatch) (c : Decoded), s.faulted = none → s.stall = 0#2 → s.fl = some f →
    (∀ d ∈ s.dl, d.redirect = none) → decodeFields f.raw = .ok c → executeStage s = .next t →
    ∃ u d, step s = .next u ∧ u.dl = some d ∧ u.faulted = none ∧
      d.raw = f.raw ∧ d.instrPC = f.fetchPC ∧ d.opcode = c.opcode ∧ d.rs = c.rs ∧ d.second = c.second ∧
      d.sourceValue = t.reg c.rs ∧
      (c.fmt = .register → d.secondValue = (t.reg (c.second.extractLsb' 0 6)).setWidth 16) ∧
      (c.fmt = .immediate → d.secondValue = c.second) ∧
      (∀ j, u.reg j = t.reg j) ∧ (∀ g ∈ u.fl, g.fetchPC = t.pc)

/-- R110 and R121: in the cycle of a taken BEQZ or a BR, `pc` becomes the target, both latches are emptied,
whatever word `FL` held, `stall` becomes 2, and nothing is decoded, fetched or faulted. A BEQZ that is not
taken does none of this. -/
def Obligations.ControlTransferFlushesAndStalls : Prop :=
  ∀ (s : State) (d : DecodeLatch), Executes s d →
    (∀ p : WorkInt, d.redirect = some p →
      step s = .next { s with pc := p, fl := none, dl := none, stall := 2#2 }) ∧
    (d.opcode = .br → d.redirect = some (d.sourceValue ++ d.secondValue.extractLsb' 0 8)) ∧
    (d.opcode = .beqz → d.sourceValue = 0#8 → d.redirect = some (d.instrPC + 1#16 + d.secondValue)) ∧
    (d.opcode = .beqz → d.sourceValue ≠ 0#8 → step s = .next (finishCycle { s with dl := none }))

/-- R211 (its first sentence, up to the fetch) and R122: after a control transfer two cycles pass with no
stage activity and Empty latches, and the third fetches at the target. -/
def Obligations.TargetFetchedThreeCyclesLater : Prop :=
  ∀ (s : State) (d : DecodeLatch) (p : WorkInt), Executes s d → d.redirect = some p →
    afterCycles 2 s = some { s with pc := p, fl := none, dl := none, stall := 1#2 } ∧
    afterCycles 3 s = some { s with pc := p, fl := none, dl := none, stall := 0#2 } ∧
    (p.toNat < Config.imemWords → imemRead s.im p ≠ 0#16 →
      afterCycles 4 s = some { s with
        pc := p + 1#16, fl := some { raw := imemRead s.im p, fetchPC := p }, dl := none, stall := 0#2 })

/-- R112: a stalled cycle only counts down, and empties the latches on reaching 0. -/
def Obligations.StalledCycleOnlyCountsDown : Prop :=
  ∀ s : State, s.faulted = none →
    (s.stall = 2#2 → step s = .next { s with stall := 1#2 }) ∧
    (s.stall = 1#2 → step s = .next { s with stall := 0#2, fl := none, dl := none })

/-- R114: the transitions of the control state machine, with the activity of FAULT. -/
def Obligations.ControlStateMachineTransitions : Prop :=
  ∀ (s t : State), step s = .next t →
    (s.control = some .fault → t = s) ∧
    (s.control = some .stall2 → t.control = some .stall1) ∧
    (s.control = some .stall1 → t.control = some .run ∧ t.fl = none ∧ t.dl = none) ∧
    (s.control = some .run → (∃ d ∈ s.dl, d.redirect ≠ none) → t.control = some .stall2) ∧
    (s.control = some .run → (∀ d ∈ s.dl, d.redirect = none) →
      (∃ f ∈ s.fl, 11 < (f.raw.extractLsb' 12 4).toNat) → t.control = some .fault) ∧
    (s.control = some .run → (∀ d ∈ s.dl, d.redirect = none) →
      (∀ f ∈ s.fl, (f.raw.extractLsb' 12 4).toNat ≤ 11) → t.control = some .run)

/-- R116 and R117: the core is halted exactly when it is not faulted, `pc` is at or above the bound and both
latches are Empty, whatever the stall counter; and it stays so: only the stall counter changes, and two cycles
bring it to 0. -/
def Obligations.HaltedCoreStaysHalted : Prop :=
  ∀ s : State,
    (s.halted = true ↔ s.faulted = none ∧ 1024 ≤ s.pc.toNat ∧ s.fl = none ∧ s.dl = none) ∧
    (s.halted = true → s.stall ≠ 3#2 → ∀ n : Nat,
      ∃ t, afterCycles n s = some t ∧ t.halted = true ∧ t = { s with stall := t.stall } ∧
        t.stall.toNat = s.stall.toNat - n)

/-- R115 and R35: the instruction-memory port is active exactly in a cycle of a core that is neither faulted
nor stalled, whose `pc` is below the bound, with no control transfer in `DL` and no word of opcode 12 to 15 in
`FL`; and its address is then the `pc` at the start of the cycle, of which `pc[9:0]` loses no bit. -/
def Obligations.FetchAddressIsStartingPc : Prop :=
  ∀ (s : State) (a : BitVec 10),
    (imemPort s = some a ↔
      s.faulted = none ∧ s.stall = 0#2 ∧ s.pc.toNat < 1024 ∧ (∀ d ∈ s.dl, d.redirect = none) ∧
      (∀ f ∈ s.fl, (f.raw.extractLsb' 12 4).toNat ≤ 11) ∧ a = s.pc.extractLsb' 0 10) ∧
    (imemPort s = some a → a.toNat = s.pc.toNat)

/-! ## The decode fault -/

/-- R107 and R181: an invalid word that Decode consumes sets the fault record and ends the cycle; Execute's
effect of the same cycle stands, `FL` keeps the word, `DL` is Empty, `pc` stays, and no later cycle changes
anything. -/
def Obligations.InvalidWordTakesDecodeFault : Prop :=
  ∀ (s t : State) (f : FetchLatch), s.faulted = none → s.stall = 0#2 → s.fl = some f →
    (∀ d ∈ s.dl, d.redirect = none) → 11 < (f.raw.extractLsb' 12 4).toNat → executeStage s = .next t →
    ∃ u, step s = .next u ∧ u = { t with faulted := some { pc := f.fetchPC, word := f.raw } } ∧
      u.fl = some f ∧ u.dl = none ∧ u.pc = s.pc ∧ step u = .next u

/-- R181 (its second sentence) and R183: a cycle enters the faulted state only when Decode consumes a word
with opcode 12 to 15, and no control transfer executes in that cycle. -/
def Obligations.OnlyConsumedInvalidWordsFault : Prop :=
  ∀ (s t : State), step s = .next t → s.faulted = none → t.faulted ≠ none →
    s.stall = 0#2 ∧ (∀ d ∈ s.dl, d.redirect = none) ∧
    ∃ f, s.fl = some f ∧ 11 < (f.raw.extractLsb' 12 4).toNat ∧
      t.faulted = some { pc := f.fetchPC, word := f.raw }

/-- R113: a faulted core changes nothing. -/
def Obligations.FaultedCoreChangesNothing : Prop :=
  ∀ (s : State) (n : Nat), s.faulted ≠ none → afterCycles n s = some s

/-- R182: the decode fault is precise. The registers, flags and data memory are those of the sequential
machine standing at the faulting word, `pc` is one past it, and nothing was done for it. -/
def Obligations.DecodeFaultIsPrecise : Prop :=
  ∀ (s t : State) (r : FaultRecord), Inv s → step s = .next t → s.faulted = none → t.faulted = some r →
    t.pc = r.pc + 1#16 ∧ imemRead t.im r.pc = r.word ∧ t.dl = none ∧
    seqView t = { x := t.x, sr := t.sr, dm := t.dm, pc := r.pc } ∧
    seqView t = (if s.dl = none then seqView s else Seq.next s.im (seqView s))

/-! ## Memories -/

/-- R54 and R55: the data memory at its port. The canonical form is an invariant of its own. -/
def Obligations.DataMemoryReadsWhatWasWritten : Prop :=
  ∀ (dm : List Host.Cell) (a b : WorkInt) (v : Byte), Memory.wf Config.dmemBytes dm = true →
    (Config.dmemBytes ≤ a.toNat → dmemRead dm a = 0x00#8 ∧ dmemWrite dm a v = dm) ∧
    (a.toNat < Config.dmemBytes → dmemRead (dmemWrite dm a v) a = v) ∧
    (b ≠ a → dmemRead (dmemWrite dm a v) b = dmemRead dm b)

/-- Derived from R51 and R53, over the model's representation (log entry 1): every cycle keeps both
memories in canonical form. -/
def Obligations.EveryStepKeepsMemoriesCanonical : Prop :=
  ∀ (s t : State), step s = .next t →
    Memory.wf Config.imemWords s.im = true → Memory.wf Config.dmemBytes s.dm = true →
    Memory.wf Config.imemWords t.im = true ∧ Memory.wf Config.dmemBytes t.dm = true

/-- R65 and R51: no cycle and no reset changes the instruction memory. -/
def Obligations.InstructionMemoryIsReadOnly : Prop :=
  ∀ (rst : Bool) (s t : State), clockEdge rst s = .next t → t.im = s.im

/-- R56: data bytes 32 to 2047 stay `0x00` for the whole run of any program. -/
def Obligations.DataBytesFromThirtyTwoStayZero : Prop :=
  ∀ (program : List Word) (s t : State) (n : Nat), boot program = some s → afterCycles n s = some t →
    ∀ a : Nat, 32 ≤ a → Memory.read t.dm a = 0x00#8

/-! ## Reset and boot -/

/-- R200 and R52: the state after reset with a program loaded; the loader accepts exactly the programs of at
most 1024 words. -/
def Obligations.BootLeavesResetStateAndImage : Prop :=
  ∀ program : List Word,
    (1024 < program.length → boot program = none) ∧
    (program.length ≤ 1024 → ∃ s, boot program = some s ∧
      (∀ j : RegIdx, s.reg j = 0x00#8) ∧
      s.sr = { z := false, n := false, c := false, v := false, s := false } ∧
      s.pc = 0x0000#16 ∧ s.fl = none ∧ s.dl = none ∧ s.stall = 0#2 ∧ s.faulted = none ∧
      (∀ a : Nat, Memory.read s.dm a = 0x00#8) ∧
      (∀ k : Nat, Memory.read s.im k = program.getD k 0x0000#16))

/-- R202: an edge with `rst` high sets the core state and the data memory to the values of R200, leaves the
instruction memory, and leaves the faulted state; an edge with `rst` low is a cycle. -/
def Obligations.ResetEdgeRestoresAllButProgram : Prop :=
  ∀ s : State,
    (∃ t, clockEdge true s = .next t ∧ t.im = s.im ∧ (∀ j : RegIdx, t.reg j = 0x00#8) ∧
      t.sr = { z := false, n := false, c := false, v := false, s := false } ∧ t.pc = 0x0000#16 ∧
      t.fl = none ∧ t.dl = none ∧ t.stall = 0#2 ∧ t.faulted = none ∧
      (∀ a : Nat, Memory.read t.dm a = 0x00#8)) ∧
    clockEdge false s = step s

/-! ## What leaves the core -/

/-- R27: the packing of the flags in the observation snapshot. -/
def Obligations.ObservedFlagsArePackedCVNSZ : Prop :=
  ∀ s : State,
    (observe s).sreg.getLsbD 4 = s.sr.c ∧ (observe s).sreg.getLsbD 3 = s.sr.v ∧
    (observe s).sreg.getLsbD 2 = s.sr.n ∧ (observe s).sreg.getLsbD 1 = s.sr.s ∧
    (observe s).sreg.getLsbD 0 = s.sr.z

/-- R37, with the status ports of R35: what the observation snapshot presents; the fields of an Empty latch
are 0. The `halted` port is the predicate of R116, which does not read the stall counter. -/
def Obligations.ObservationPresentsState : Prop :=
  ∀ s : State,
    (observe s).x = s.x ∧ (observe s).pc = s.pc ∧ (observe s).stall = s.stall ∧
    (observe s).z = s.sr.z ∧ (observe s).n = s.sr.n ∧ (observe s).c = s.sr.c ∧ (observe s).v = s.sr.v ∧
    (observe s).s = s.sr.s ∧ (observe s).sreg = s.sr.pack ∧
    (s.fl = none → (observe s).fl = { occupied := false, raw := 0#16, fetchPC := 0#16 }) ∧
    (∀ f, s.fl = some f → (observe s).fl = { occupied := true, raw := f.raw, fetchPC := f.fetchPC }) ∧
    (s.dl = none → (observe s).dl =
      { occupied := false, raw := 0#16, instrPC := 0#16, opcode := 0#4, rs := 0#6, second := 0#16,
        sourceValue := 0#8, secondValue := 0#16 }) ∧
    (∀ d, s.dl = some d → (observe s).dl =
      { occupied := true, raw := d.raw, instrPC := d.instrPC, opcode := d.opcode.toBits, rs := d.rs,
        second := d.second, sourceValue := d.sourceValue, secondValue := d.secondValue }) ∧
    ((observe s).halted = true ↔ s.faulted = none ∧ 1024 ≤ s.pc.toNat ∧ s.fl = none ∧ s.dl = none) ∧
    ((observe s).fault = true ↔ s.faulted ≠ none) ∧
    (∀ r, s.faulted = some r → (observe s).faultPc = some r.pc ∧ (observe s).faultWord = some r.word)

/-- Derived from R35 and R163: the data-memory ports are active exactly in the cycle that executes an LDR or
an STR, with the full 16-bit address. -/
def Obligations.DataPortsFollowExecutingAccess : Prop :=
  ∀ (s : State) (a : WorkInt) (v : Byte),
    (dmemReadPort s = some a ↔ ∃ d, Executes s d ∧ d.opcode = .ldr ∧ d.secondValue = a) ∧
    (dmemWritePort s = some (a, v) ↔
      ∃ d, Executes s d ∧ d.opcode = .str ∧ d.secondValue = a ∧ d.sourceValue = v)

/-- R38: the effect record of a cycle says exactly what its Execute writes: the register, for the opcodes of
R23; the byte of data memory actually written, for an STR in range; the control transfer; and the flags, by
the table of R26. A cycle that executes nothing reports nothing. The registers, the data memory and the flags
after the cycle are those before it with the reported writes. The order of `eff_flags_we` is log entry 8. -/
def Obligations.EffectRecordReportsTheCycle : Prop :=
  ∀ (s t : State), Inv s → step s = .next t →
    (∀ j : RegIdx, t.reg j =
      match (cycleEffects s).reg with
      | some (i, v) => if j = i then v else s.reg j
      | none => s.reg j) ∧
    (∀ a : Nat, Memory.read t.dm a =
      match (cycleEffects s).mem with
      | some (k, v) => if a = k.toNat then v else Memory.read s.dm a
      | none => Memory.read s.dm a) ∧
    (∀ p, (cycleEffects s).redirect = some p → t.pc = p ∧ t.fl = none ∧ t.dl = none ∧ t.stall = 2#2) ∧
    ((cycleEffects s).redirect = none → t.stall ≠ 2#2) ∧
    ((cycleEffects s).flagsWe.getLsbD 4 = false → t.sr.c = s.sr.c) ∧
    ((cycleEffects s).flagsWe.getLsbD 3 = false → t.sr.v = s.sr.v) ∧
    ((cycleEffects s).flagsWe.getLsbD 2 = false → t.sr.n = s.sr.n) ∧
    ((cycleEffects s).flagsWe.getLsbD 1 = false → t.sr.s = s.sr.s) ∧
    ((cycleEffects s).flagsWe.getLsbD 0 = false → t.sr.z = s.sr.z) ∧
    ((∀ d, ¬ Executes s d) → cycleEffects s = { reg := none, mem := none, redirect := none, flagsWe := 0b00000#5 }) ∧
    (∀ d, Executes s d →
      (∀ j v, (cycleEffects s).reg = some (j, v) ↔
        d.opcode ∈ [Opcode.add, .sub, .mul, .movi, .andi, .eor, .sal, .sar, .ldr] ∧ j = d.rs ∧ v = t.reg d.rs) ∧
      (∀ k v, (cycleEffects s).mem = some (k, v) ↔
        d.opcode = .str ∧ d.secondValue.toNat < 2048 ∧ k.toNat = d.secondValue.toNat ∧ v = d.sourceValue) ∧
      (∀ p, (cycleEffects s).redirect = some p ↔
        (d.opcode = .beqz ∧ d.sourceValue = 0x00#8 ∧ p = d.instrPC + 1#16 + d.secondValue) ∨
        (d.opcode = .br ∧ p = d.sourceValue ++ d.secondValue.extractLsb' 0 8)) ∧
      (d.opcode ∈ [Opcode.add, .sub] → (cycleEffects s).flagsWe = 0b11111#5) ∧
      (d.opcode ∈ [Opcode.mul, .andi, .eor, .sal, .sar] → (cycleEffects s).flagsWe = 0b00101#5) ∧
      (d.opcode ∈ [Opcode.movi, .ldr, .str, .beqz, .br] → (cycleEffects s).flagsWe = 0b00000#5))

/-! ## Invariants -/

/-- The invariants hold of the reset state (R200), which has no program. -/
def Obligations.InvariantHoldsAtReset : Prop := Inv State.reset

/-- The invariants hold after boot with any program, and after a reset edge on any state that has them. -/
def Obligations.InvariantHoldsAfterBootAndReset : Prop :=
  (∀ (program : List Word) (s : State), boot program = some s → Inv s) ∧
  (∀ s t : State, Inv s → clockEdge true s = .next t → Inv t)

/-- R118, with what the latches hold: every cycle keeps the invariants, from any state that has them. -/
def Obligations.EveryStepKeepsInvariant : Prop :=
  ∀ (s t : State), Inv s → step s = .next t → Inv t

/-- R118 (c): in a state with the invariants, no latch is overwritten while Occupied: Execute leaves `DL`
Empty for Decode, and Decode leaves `FL` Empty whenever Fetch runs. -/
def Obligations.NoLatchIsOverwritten : Prop :=
  ∀ (s t : State), Inv s → s.faulted = none → s.stall = 0#2 → executeStage s = .next t →
    t.dl = none ∧ ((decodeStage t).faulted = none → (decodeStage t).stall = 0#2 → (decodeStage t).fl = none)

/-- R180 and R189: a state with the invariants always has a next state. -/
def Obligations.InvariantStatesNeverStop : Prop := ∀ s : State, Inv s → ∃ t, step s = .next t

/-- The model's choice (log entry 3): a step stops only on the malformed stall value, and never refuses. -/
def Obligations.StepStopsOnlyOnMalformedStall : Prop :=
  ∀ s : State,
    (∀ r, step s = .fault r ↔ r = .malformedStall ∧ s.faulted = none ∧ s.stall = 3#2) ∧
    (∀ r, step s ≠ .refused r)

/-! ## Sequential equivalence -/

/-- R120: one cycle of the pipeline is one step of the sequential machine when Execute performs an
instruction, and no step of it otherwise. -/
def Obligations.CycleRefinesSequentialMachine : Prop :=
  ∀ (s t : State), Inv s → step s = .next t →
    seqView t = if (executingLatch s).isSome then Seq.next s.im (seqView s) else seqView s

/-- R120 over a whole run: after `n` cycles the registers, the flags, the data memory and the next address
are those of the sequential machine after as many steps as Execute performed instructions. -/
def Obligations.RunRefinesSequentialMachine : Prop :=
  ∀ (n : Nat) (s : State), Inv s →
    ∃ t, afterCycles n s = some t ∧ Inv t ∧ t.im = s.im ∧
      seqView t = Seq.run s.im (executedIn n s) (seqView s)

/-! ## Parameters -/

/-- Derived from R6: the parameters have the spec's values, and the sizes of the machine are theirs: the
number of registers, the widths of a register, an instruction word, the packed flags and the working integer,
the fetch bound, the bound of the data memory, the stall set by a control transfer, and the opcodes that
select an instruction. -/
def Obligations.SizesFollowParameters : Prop :=
  Config.params =
    { nregs := 64, xlen := 8, ilen := 16, imemWords := 1024, dmemBytes := 2048, nflags := 5,
      stallDepth := 2, wlen := 16, nopcodes := 12 } ∧
  (∀ s : State, s.x.toList.length = Config.params.nregs) ∧
  (∀ n : Nat, (∃ (s : State) (j : RegIdx), (s.reg j).toNat = n) ↔ n < 2 ^ Config.params.xlen) ∧
  (∀ n : Nat, (∃ (s : State) (a : WorkInt), (imemRead s.im a).toNat = n) ↔ n < 2 ^ Config.params.ilen) ∧
  (∀ n : Nat, (∃ s : State, s.sr.pack.toNat = n) ↔ n < 2 ^ Config.params.nflags) ∧
  (∀ n : Nat, (∃ s : State, s.pc.toNat = n) ↔ n < 2 ^ Config.params.wlen) ∧
  (∀ s : State, s.stall = 0#2 → (fetchEnabled s = true ↔ s.pc.toNat < Config.params.imemWords)) ∧
  (∀ (a : WorkInt) (v : Byte), v ≠ 0x00#8 →
    (dmemRead (dmemWrite [] a v) a = v ↔ a.toNat < Config.params.dmemBytes)) ∧
  (∀ (s : State) (p : WorkInt), (s.transferTo p).stall.toNat = Config.params.stallDepth) ∧
  (∀ b : BitVec 4, (∃ op, Opcode.ofBits b = some op) ↔ b.toNat < Config.params.nopcodes)
end

