-- ==== Sys2Proof/Laws/Sizes.lean ====
section
/-! SUPPORT. The definitions that read a size from Config, at the spec's values of R6. The equations name no
parameter on the right, so that a proof can leave the parameters behind in one rewrite; `omega` and the
bit-vector lemmas then see literal widths. Most are true by rfl. -/

namespace Sys2Proof

@[simp] theorem Config.two_pow_xlen : 2 ^ Config.xlen = 256 := rfl
@[simp] theorem Config.two_pow_ilen : 2 ^ Config.ilen = 65536 := rfl
@[simp] theorem Config.two_pow_wlen : 2 ^ Config.wlen = 65536 := rfl

theorem Byte.toNat_lt (v : Byte) : v.toNat < 256 := v.isLt
theorem Word.toNat_lt (w : Word) : w.toNat < 65536 := w.isLt
theorem WorkInt.toNat_lt (a : WorkInt) : a.toNat < 65536 := a.isLt

theorem signExtend6_eq (v : BitVec 6) : signExtend6 v = (v.signExtend 16 : BitVec 16) := rfl
theorem zeroExtend6_eq (v : BitVec 6) : zeroExtend6 v = (v.setWidth 16 : BitVec 16) := rfl

/-- The fields of a word as numbers. -/
theorem opcodeField_toNat (w : Word) : (opcodeField w).toNat = w.toNat / 4096 := by
  have := w.toNat_lt
  rw [opcodeField, BitVec.extractLsb'_toNat, Nat.shiftRight_eq_div_pow]
  omega
theorem rsField_toNat (w : Word) : (rsField w).toNat = w.toNat / 64 % 64 := by
  rw [rsField, BitVec.extractLsb'_toNat, Nat.shiftRight_eq_div_pow]
theorem lowField_toNat (w : Word) : (lowField w).toNat = w.toNat % 64 := by
  rw [lowField, BitVec.extractLsb'_toNat, Nat.shiftRight_zero]

/-- A pattern selects an opcode by its number; the bound `NOPCODES` shuts out 12 to 15. -/
theorem Opcode.ofBits_eq (b : BitVec 4) : Opcode.ofBits b = Opcode.ofNumber b.toNat := by
  revert b; decide

end Sys2Proof

namespace Sys2Proof.Machine

theorem zeroExtend8_eq (v : Byte) : zeroExtend8 v = (BitVec.setWidth 16 v : BitVec 16) := rfl
theorem lowByte_eq (b : WorkInt) : lowByte b = b.extractLsb' 0 8 :=
  BitVec.setWidth_eq_extractLsb' (show 8 ≤ 16 by decide)
theorem beqzTarget_eq (p b : WorkInt) : beqzTarget p b = BitVec.ofInt 16 ((p.toNat : Int) + 1 + b.toInt) := rfl

/-- BR's target has `WLEN` bits already: the two bytes side by side. -/
theorem brTarget_eq (a : Byte) (b : WorkInt) : brTarget a b = (a ++ lowByte b : BitVec (8 + 8)) :=
  BitVec.setWidth_eq (a ++ lowByte b : BitVec (8 + 8))

theorem addCarry_eq (a b : Byte) : addCarry a b = decide (256 ≤ a.toNat + b.toNat) := rfl

/-- The exact result does not fit 8 bits of two's complement. -/
theorem outsideSigned_iff (i : Int) : outsideSigned i = true ↔ i < -128 ∨ 127 < i := by
  simp only [outsideSigned, Bool.or_eq_true, decide_eq_true_eq]
  norm_num
  omega

theorem addResult_eq (a : Byte) (b : WorkInt) : addResult a b = BitVec.ofNat 8 (a.toNat + (lowByte b).toNat) := rfl
theorem subResult_eq (a : Byte) (b : WorkInt) :
    subResult a b = BitVec.ofInt 8 ((a.toNat : Int) - ((lowByte b).toNat : Int)) := rfl
theorem mulResult_eq (a : Byte) (b : WorkInt) : mulResult a b = BitVec.ofNat 8 (a.toNat * (lowByte b).toNat) := rfl
theorem salResult_eq (a : Byte) (b : WorkInt) :
    salResult a b = if 8 ≤ b.toNat then 0x00#8 else BitVec.ofNat 8 (a.toNat * 2 ^ b.toNat) := rfl
theorem sarResult_eq (a : Byte) (b : WorkInt) :
    sarResult a b = if 8 ≤ b.toNat then (if a.getLsbD 7 then 0xFF#8 else 0x00#8)
      else BitVec.ofInt 8 (a.toInt / 2 ^ b.toNat) := rfl
theorem zeroFlag_eq (r : Byte) : zeroFlag r = decide (r = 0x00#8) := rfl
theorem negativeFlag_eq (r : Byte) : negativeFlag r = r.getLsbD 7 := rfl

end Sys2Proof.Machine
end

