-- ==== Sys2Proof/Laws/State.lean ====
section
/-! SUPPORT. One lemma per field of State per update, each true by rfl, so that no proof unfolds a record
update; and the two laws of the register file. -/

namespace Sys2Proof.Machine

@[simp] theorem State.setReg_x (s : State) (i : RegIdx) (v : Byte) : (s.setReg i v).x = s.x.set i.toNat v (regIdx_lt i) := rfl
@[simp] theorem State.setReg_sr (s : State) (i : RegIdx) (v : Byte) : (s.setReg i v).sr = s.sr := rfl
@[simp] theorem State.setReg_pc (s : State) (i : RegIdx) (v : Byte) : (s.setReg i v).pc = s.pc := rfl
@[simp] theorem State.setReg_fl (s : State) (i : RegIdx) (v : Byte) : (s.setReg i v).fl = s.fl := rfl
@[simp] theorem State.setReg_dl (s : State) (i : RegIdx) (v : Byte) : (s.setReg i v).dl = s.dl := rfl
@[simp] theorem State.setReg_stall (s : State) (i : RegIdx) (v : Byte) : (s.setReg i v).stall = s.stall := rfl
@[simp] theorem State.setReg_faulted (s : State) (i : RegIdx) (v : Byte) : (s.setReg i v).faulted = s.faulted := rfl
@[simp] theorem State.setReg_im (s : State) (i : RegIdx) (v : Byte) : (s.setReg i v).im = s.im := rfl
@[simp] theorem State.setReg_dm (s : State) (i : RegIdx) (v : Byte) : (s.setReg i v).dm = s.dm := rfl

@[simp] theorem State.setFlags_x (s : State) (r : StatusRegister) : (s.setFlags r).x = s.x := rfl
@[simp] theorem State.setFlags_sr (s : State) (r : StatusRegister) : (s.setFlags r).sr = r := rfl
@[simp] theorem State.setFlags_pc (s : State) (r : StatusRegister) : (s.setFlags r).pc = s.pc := rfl
@[simp] theorem State.setFlags_fl (s : State) (r : StatusRegister) : (s.setFlags r).fl = s.fl := rfl
@[simp] theorem State.setFlags_dl (s : State) (r : StatusRegister) : (s.setFlags r).dl = s.dl := rfl
@[simp] theorem State.setFlags_stall (s : State) (r : StatusRegister) : (s.setFlags r).stall = s.stall := rfl
@[simp] theorem State.setFlags_faulted (s : State) (r : StatusRegister) : (s.setFlags r).faulted = s.faulted := rfl
@[simp] theorem State.setFlags_im (s : State) (r : StatusRegister) : (s.setFlags r).im = s.im := rfl
@[simp] theorem State.setFlags_dm (s : State) (r : StatusRegister) : (s.setFlags r).dm = s.dm := rfl

@[simp] theorem State.store_x (s : State) (a : WorkInt) (v : Byte) : (s.store a v).x = s.x := rfl
@[simp] theorem State.store_sr (s : State) (a : WorkInt) (v : Byte) : (s.store a v).sr = s.sr := rfl
@[simp] theorem State.store_pc (s : State) (a : WorkInt) (v : Byte) : (s.store a v).pc = s.pc := rfl
@[simp] theorem State.store_fl (s : State) (a : WorkInt) (v : Byte) : (s.store a v).fl = s.fl := rfl
@[simp] theorem State.store_dl (s : State) (a : WorkInt) (v : Byte) : (s.store a v).dl = s.dl := rfl
@[simp] theorem State.store_stall (s : State) (a : WorkInt) (v : Byte) : (s.store a v).stall = s.stall := rfl
@[simp] theorem State.store_faulted (s : State) (a : WorkInt) (v : Byte) : (s.store a v).faulted = s.faulted := rfl
@[simp] theorem State.store_im (s : State) (a : WorkInt) (v : Byte) : (s.store a v).im = s.im := rfl
@[simp] theorem State.store_dm (s : State) (a : WorkInt) (v : Byte) : (s.store a v).dm = dmemWrite s.dm a v := rfl

@[simp] theorem State.transferTo_x (s : State) (t : WorkInt) : (s.transferTo t).x = s.x := rfl
@[simp] theorem State.transferTo_sr (s : State) (t : WorkInt) : (s.transferTo t).sr = s.sr := rfl
@[simp] theorem State.transferTo_pc (s : State) (t : WorkInt) : (s.transferTo t).pc = t := rfl
@[simp] theorem State.transferTo_fl (s : State) (t : WorkInt) : (s.transferTo t).fl = none := rfl
@[simp] theorem State.transferTo_dl (s : State) (t : WorkInt) : (s.transferTo t).dl = none := rfl
@[simp] theorem State.transferTo_stall (s : State) (t : WorkInt) : (s.transferTo t).stall = 2#2 := rfl
@[simp] theorem State.transferTo_faulted (s : State) (t : WorkInt) : (s.transferTo t).faulted = s.faulted := rfl
@[simp] theorem State.transferTo_im (s : State) (t : WorkInt) : (s.transferTo t).im = s.im := rfl
@[simp] theorem State.transferTo_dm (s : State) (t : WorkInt) : (s.transferTo t).dm = s.dm := rfl

@[simp] theorem State.takeDecodeFault_x (s : State) (p : WorkInt) (w : Word) : (s.takeDecodeFault p w).x = s.x := rfl
@[simp] theorem State.takeDecodeFault_sr (s : State) (p : WorkInt) (w : Word) : (s.takeDecodeFault p w).sr = s.sr := rfl
@[simp] theorem State.takeDecodeFault_pc (s : State) (p : WorkInt) (w : Word) : (s.takeDecodeFault p w).pc = s.pc := rfl
@[simp] theorem State.takeDecodeFault_fl (s : State) (p : WorkInt) (w : Word) : (s.takeDecodeFault p w).fl = s.fl := rfl
@[simp] theorem State.takeDecodeFault_dl (s : State) (p : WorkInt) (w : Word) : (s.takeDecodeFault p w).dl = s.dl := rfl
@[simp] theorem State.takeDecodeFault_stall (s : State) (p : WorkInt) (w : Word) : (s.takeDecodeFault p w).stall = s.stall := rfl
@[simp] theorem State.takeDecodeFault_faulted (s : State) (p : WorkInt) (w : Word) : (s.takeDecodeFault p w).faulted = some { pc := p, word := w } := rfl
@[simp] theorem State.takeDecodeFault_im (s : State) (p : WorkInt) (w : Word) : (s.takeDecodeFault p w).im = s.im := rfl
@[simp] theorem State.takeDecodeFault_dm (s : State) (p : WorkInt) (w : Word) : (s.takeDecodeFault p w).dm = s.dm := rfl

@[simp] theorem State.resetCore_x (s : State) : (s.resetCore).x = State.reset.x := rfl
@[simp] theorem State.resetCore_sr (s : State) : (s.resetCore).sr = State.reset.sr := rfl
@[simp] theorem State.resetCore_pc (s : State) : (s.resetCore).pc = State.reset.pc := rfl
@[simp] theorem State.resetCore_fl (s : State) : (s.resetCore).fl = State.reset.fl := rfl
@[simp] theorem State.resetCore_dl (s : State) : (s.resetCore).dl = State.reset.dl := rfl
@[simp] theorem State.resetCore_stall (s : State) : (s.resetCore).stall = State.reset.stall := rfl
@[simp] theorem State.resetCore_faulted (s : State) : (s.resetCore).faulted = State.reset.faulted := rfl
@[simp] theorem State.resetCore_im (s : State) : (s.resetCore).im = s.im := rfl
@[simp] theorem State.resetCore_dm (s : State) : (s.resetCore).dm = State.reset.dm := rfl

/-- Reading the register file after a write: the written register reads the value, every other register
reads as before; index 0 is no exception (10_state.md R24). -/
theorem State.reg_setReg (s : State) (i j : RegIdx) (v : Byte) :
    (s.setReg i v).reg j = if j = i then v else s.reg j := by
  unfold State.reg State.setReg
  by_cases h : j = i
  · subst h; simp
  · have hne : i.toNat ≠ j.toNat := fun e => h (BitVec.eq_of_toNat_eq e.symm)
    simp [hne, h]

@[simp] theorem State.reg_setReg_same (s : State) (i : RegIdx) (v : Byte) : (s.setReg i v).reg i = v := by
  simp [State.reg_setReg]

@[simp] theorem State.reg_setReg_other (s : State) {i j : RegIdx} (v : Byte) (h : j ≠ i) :
    (s.setReg i v).reg j = s.reg j := by
  simp [State.reg_setReg, h]

@[simp] theorem State.reg_setFlags (s : State) (r : StatusRegister) (j : RegIdx) :
    (s.setFlags r).reg j = s.reg j := rfl

@[simp] theorem State.reg_store (s : State) (a : WorkInt) (v : Byte) (j : RegIdx) :
    (s.store a v).reg j = s.reg j := rfl

@[simp] theorem State.reg_transferTo (s : State) (t : WorkInt) (j : RegIdx) :
    (s.transferTo t).reg j = s.reg j := rfl

@[simp] theorem State.reg_takeDecodeFault (s : State) (p : WorkInt) (w : Word) (j : RegIdx) :
    (s.takeDecodeFault p w).reg j = s.reg j := rfl

/-- A register reads by the register file alone. -/
theorem State.reg_congr {s t : State} (h : t.x = s.x) (j : RegIdx) : t.reg j = s.reg j := by
  simp only [State.reg, h]

end Sys2Proof.Machine
end

