-- ==== Sys2Proof/Laws/Memory.lean ====
section
/-! SUPPORT. The laws of the memories: what a read gives after a write, that every operation keeps the
canonical form, and that in that form equal contents are equal lists. -/

namespace Sys2Proof.Machine

variable {w : Nat}

theorem Memory.wfFrom_mono {size lo lo' : Nat} {m : Memory w} (h : Memory.wfFrom size lo m = true)
    (hle : lo' ≤ lo) : Memory.wfFrom size lo' m = true := by
  cases m with
  | nil => rfl
  | cons e m =>
    simp only [Memory.wfFrom, Bool.and_eq_true, decide_eq_true_eq] at h ⊢
    exact ⟨⟨⟨by omega, h.1.1.2⟩, h.1.2⟩, h.2⟩

/-- Below its first possible address a canonical memory lists nothing. -/
theorem Memory.read_below {size lo a : Nat} {m : Memory w} (h : Memory.wfFrom size lo m = true)
    (ha : a < lo) : Memory.read m a = 0#w := by
  induction m generalizing lo with
  | nil => rfl
  | cons e m ih =>
    obtain ⟨k, v⟩ := e
    simp only [Memory.wfFrom, Bool.and_eq_true, decide_eq_true_eq] at h
    rw [Memory.read, if_neg (by omega)]
    exact ih h.2 (by omega)

/-- At and above the size a canonical memory lists nothing. -/
theorem Memory.read_above {size lo a : Nat} {m : Memory w} (h : Memory.wfFrom size lo m = true)
    (ha : size ≤ a) : Memory.read m a = 0#w := by
  induction m generalizing lo with
  | nil => rfl
  | cons e m ih =>
    obtain ⟨k, v⟩ := e
    simp only [Memory.wfFrom, Bool.and_eq_true, decide_eq_true_eq] at h
    rw [Memory.read, if_neg (by omega)]
    exact ih h.2

/-- A write leaves every other address alone, in any list. -/
theorem Memory.read_write_other (m : Memory w) (a b : Nat) (v : BitVec w) (hb : b ≠ a) :
    Memory.read (Memory.write m a v) b = Memory.read m b := by
  induction m with
  | nil =>
    unfold Memory.write
    split <;> simp [Memory.read, Ne.symm hb]
  | cons e m ih =>
    obtain ⟨k, u⟩ := e
    unfold Memory.write
    split
    · split <;> simp [Memory.read, Ne.symm hb]
    · split
      · rename_i hak
        split <;> simp [Memory.read, ← hak, Ne.symm hb]
      · simp only [Memory.read, ih]

/-- A write is read back, in canonical form. -/
theorem Memory.read_write_same {size lo : Nat} {m : Memory w} (h : Memory.wfFrom size lo m = true)
    (a : Nat) (v : BitVec w) : Memory.read (Memory.write m a v) a = v := by
  induction m generalizing lo with
  | nil =>
    unfold Memory.write
    split
    · rename_i hv; simp [Memory.read, hv]
    · simp [Memory.read]
  | cons e m ih =>
    obtain ⟨k, u⟩ := e
    simp only [Memory.wfFrom, Bool.and_eq_true, decide_eq_true_eq] at h
    unfold Memory.write
    split
    · rename_i hak
      split
      · rename_i hv
        rw [Memory.read, if_neg (by omega), hv]
        exact Memory.read_below h.2 (by omega)
      · simp [Memory.read]
    · split
      · rename_i hak
        split
        · rename_i hv
          rw [hv]
          exact Memory.read_below h.2 (by omega)
        · simp [Memory.read]
      · rename_i hak
        rw [Memory.read, if_neg (fun e => hak e.symm)]
        exact ih h.2

theorem Memory.wfFrom_write {size lo a : Nat} {m : Memory w} (h : Memory.wfFrom size lo m = true)
    (hlo : lo ≤ a) (ha : a < size) (v : BitVec w) :
    Memory.wfFrom size lo (Memory.write m a v) = true := by
  induction m generalizing lo with
  | nil =>
    unfold Memory.write
    split
    · rfl
    · rename_i hv; simp [Memory.wfFrom, hlo, ha, hv]
  | cons e m ih =>
    obtain ⟨k, u⟩ := e
    have h0 := h
    simp only [Memory.wfFrom, Bool.and_eq_true, decide_eq_true_eq] at h
    unfold Memory.write
    split
    · split
      · exact h0
      · rename_i hak hv
        simp only [Memory.wfFrom, Bool.and_eq_true, decide_eq_true_eq]
        exact ⟨⟨⟨hlo, ha⟩, hv⟩, ⟨⟨by omega, h.1.1.2⟩, h.1.2⟩, h.2⟩
    · split
      · split
        · exact Memory.wfFrom_mono h.2 (by omega)
        · rename_i hak hv
          subst hak
          simp only [Memory.wfFrom, Bool.and_eq_true, decide_eq_true_eq]
          exact ⟨⟨⟨hlo, ha⟩, hv⟩, h.2⟩
      · rename_i hlt hne
        simp only [Memory.wfFrom, Bool.and_eq_true, decide_eq_true_eq]
        exact ⟨h.1, ih h.2 (by omega)⟩

/-- A write below the size keeps the canonical form. -/
theorem Memory.wf_write {size a : Nat} {m : Memory w} (h : Memory.wf size m = true) (ha : a < size)
    (v : BitVec w) : Memory.wf size (Memory.write m a v) = true :=
  Memory.wfFrom_write h (Nat.zero_le a) ha v

/-- `MemWrite` keeps the canonical form of the data memory. -/
theorem dmemWrite_wf {dm : List Host.Cell} (h : Memory.wf Config.dmemBytes dm = true) (a : WorkInt)
    (v : Byte) : Memory.wf Config.dmemBytes (dmemWrite dm a v) = true := by
  unfold dmemWrite
  split
  · rename_i ha
    exact Memory.wf_write h ha v
  · exact h

/-- In canonical form, equal contents are equal lists. -/
theorem Memory.ext_of_wfFrom {size lo : Nat} {m m' : Memory w} (h : Memory.wfFrom size lo m = true)
    (h' : Memory.wfFrom size lo m' = true) (hr : ∀ a, Memory.read m a = Memory.read m' a) : m = m' := by
  induction m generalizing lo m' with
  | nil =>
    cases m' with
    | nil => rfl
    | cons e m' =>
      obtain ⟨k, v⟩ := e
      simp only [Memory.wfFrom, Bool.and_eq_true, decide_eq_true_eq] at h'
      exact absurd (by simpa [Memory.read] using (hr k).symm) h'.1.2
  | cons e m ih =>
    obtain ⟨k, v⟩ := e
    have h0 := h
    simp only [Memory.wfFrom, Bool.and_eq_true, decide_eq_true_eq] at h
    cases m' with
    | nil => exact absurd (by simpa [Memory.read] using hr k) h.1.2
    | cons e' m' =>
      obtain ⟨k', v'⟩ := e'
      have h0' := h'
      simp only [Memory.wfFrom, Bool.and_eq_true, decide_eq_true_eq] at h'
      have hkk : k = k' := by
        rcases Nat.lt_trichotomy k k' with hlt | heq | hgt
        · have e1 := hr k
          rw [Memory.read, if_pos rfl, Memory.read, if_neg (by omega),
            Memory.read_below h'.2 (by omega)] at e1
          exact absurd e1 h.1.2
        · exact heq
        · have e1 := hr k'
          rw [Memory.read, if_neg (by omega), Memory.read_below h.2 (by omega), Memory.read,
            if_pos rfl] at e1
          exact absurd e1.symm h'.1.2
      subst hkk
      have hv : v = v' := by simpa [Memory.read] using hr k
      subst hv
      rw [ih h.2 h'.2 fun a => ?_]
      by_cases hak : a ≤ k
      · rw [Memory.read_below h.2 (by omega), Memory.read_below h'.2 (by omega)]
      · have e1 := hr a
        rwa [Memory.read, if_neg (by omega), Memory.read, if_neg (by omega)] at e1

/-- The loader's image is canonical when it fits (20_memory.md R52). -/
theorem imageFrom_wf {size start : Nat} (ws : List Word) (h : start + ws.length ≤ size) :
    Memory.wfFrom size start (imageFrom start ws) = true := by
  induction ws generalizing start with
  | nil => rfl
  | cons u ws ih =>
    simp only [List.length_cons] at h
    have hrest := ih (start := start + 1) (by omega)
    unfold imageFrom
    split
    · exact Memory.wfFrom_mono hrest (by omega)
    · rename_i hu
      simp only [Memory.wfFrom, Bool.and_eq_true, decide_eq_true_eq]
      exact ⟨⟨⟨Nat.le_refl _, by omega⟩, hu⟩, hrest⟩

/-- The loader's image holds word `k` at `start + k`, and 0 after the last word (R52). -/
theorem imageFrom_read (ws : List Word) (start k : Nat) :
    Memory.read (imageFrom start ws) (start + k) = ws.getD k 0#16 := by
  induction ws generalizing start k with
  | nil => rfl
  | cons u ws ih =>
    have hnot : ∀ (vs : List Word) (p : Nat), start < p → Memory.read (imageFrom p vs) start = 0#16 :=
      fun vs p hp => Memory.read_below (imageFrom_wf (size := p + vs.length) vs (Nat.le_refl _)) hp
    cases k with
    | zero =>
      unfold imageFrom
      split
      · rename_i hu
        simp [hu, hnot ws (start + 1) (by omega)]
      · simp [Memory.read]
    | succ k =>
      have step := ih (start + 1) k
      rw [show start + 1 + k = start + (k + 1) by omega] at step
      unfold imageFrom
      split
      · simpa using step
      · rw [Memory.read, if_neg (by omega)]
        simpa using step

end Sys2Proof.Machine
end

