-- ==== Sys2Proof/Laws/Ops.lean ====
section
/-! SUPPORT. For each shared operation, one lemma that says once everything it can do. Proofs cite these
instead of unfolding the operation. -/

namespace Sys2Proof.Machine

/-- Execute's wrapper performs the rule on the latch, or does nothing. -/
theorem executing_cases (s : State) (rule : DecodeLatch → State) :
    (∃ d, s.dl = some d ∧ executing s rule = .next (rule d)) ∨
    (s.dl = none ∧ executing s rule = .next s) := by
  unfold executing
  cases h : s.dl with
  | none => exact .inr ⟨rfl, rfl⟩
  | some d => exact .inl ⟨d, rfl, rfl⟩

theorem executing_some {s : State} {d : DecodeLatch} (h : s.dl = some d) (rule : DecodeLatch → State) :
    executing s rule = .next (rule d) := by
  simp only [executing, h]

theorem executing_none {s : State} (h : s.dl = none) (rule : DecodeLatch → State) :
    executing s rule = .next s := by
  simp only [executing, h]

/-- The state after the rule of `i` on the latch `d`: what `exec` does, in one table. -/
def effectOf (i : Instr) (s : State) (d : DecodeLatch) : State :=
  match i with
  | .add rs _ => writeArith s rs (addResult d.a d.b) (addCarry d.a (lowByte d.b)) (addOverflow d.a (lowByte d.b))
  | .sub rs _ => writeArith s rs (subResult d.a d.b) (subCarry d.a (lowByte d.b)) (subOverflow d.a (lowByte d.b))
  | .mul rs _ => writeLogic s rs (mulResult d.a d.b)
  | .movi rs _ => s.setReg rs (moviResult d.b)
  | .beqz _ _ => if d.a = 0x00#Config.xlen then s.transferTo (beqzTarget d.instrPC d.b) else s
  | .andi rs _ => writeLogic s rs (andiResult d.a d.b)
  | .eor rs _ => writeLogic s rs (eorResult d.a d.b)
  | .br _ _ => s.transferTo (brTarget d.a d.b)
  | .sal rs _ => writeLogic s rs (salResult d.a d.b)
  | .sar rs _ => writeLogic s rs (sarResult d.a d.b)
  | .ldr rs _ => s.setReg rs (dmemRead s.dm (effectiveAddress d.b))
  | .str _ _ => s.store (effectiveAddress d.b) d.a

/-- With an Occupied latch, `exec` answers the state of `effectOf`. -/
theorem exec_eq_effectOf {s : State} {d : DecodeLatch} (h : s.dl = some d) (i : Instr) :
    exec i s = .next (effectOf i s d) := by
  cases i <;> exact executing_some h _

/-- Everything the Execute stage can do: nothing on an Empty latch, otherwise the effect of the latch's
instruction with `DL` emptied. It never stops the machine. -/
theorem executeStage_cases (s : State) :
    (s.dl = none ∧ executeStage s = .next s) ∨
    (∃ d, s.dl = some d ∧ executeStage s = .next { effectOf d.instr s d with dl := none }) := by
  unfold executeStage
  cases h : s.dl with
  | none => exact .inl ⟨rfl, rfl⟩
  | some d => exact .inr ⟨d, rfl, by simp only [exec_eq_effectOf h]⟩

/-- Everything the Decode stage can do: nothing, the decode fault, or filling `DL` and emptying `FL`. -/
theorem decodeStage_cases (s : State) :
    (s.stall ≠ 0#2 ∧ decodeStage s = s) ∨
    (s.stall = 0#2 ∧ s.fl = none ∧ decodeStage s = s) ∨
    (∃ f e, s.stall = 0#2 ∧ s.fl = some f ∧ decodeFields f.raw = .error e ∧
      decodeStage s = s.takeDecodeFault f.fetchPC f.raw) ∨
    (∃ f c, s.stall = 0#2 ∧ s.fl = some f ∧ decodeFields f.raw = .ok c ∧
      decodeStage s = { s with dl := some (latchOf s f.raw f.fetchPC c), fl := none }) := by
  unfold decodeStage
  split
  · rename_i hs
    cases hf : s.fl with
    | none => exact .inr (.inl ⟨hs, rfl, rfl⟩)
    | some f =>
      cases hd : decodeFields f.raw with
      | error e => exact .inr (.inr (.inl ⟨f, e, hs, rfl, hd, by simp only [hd]⟩))
      | ok c => exact .inr (.inr (.inr ⟨f, c, hs, rfl, hd, by simp only [hd]⟩))
  · rename_i hs
    exact .inl ⟨hs, rfl⟩

/-- Everything the Fetch stage can do: nothing, meeting the sentinel, or filling `FL`. -/
theorem fetchStage_cases (s : State) :
    (fetchEnabled s = false ∧ fetchStage s = s) ∨
    (fetchEnabled s = true ∧ imemRead s.im s.pc = 0#16 ∧
      fetchStage s = { s with pc := BitVec.ofNat Config.wlen Config.imemWords }) ∨
    (fetchEnabled s = true ∧ imemRead s.im s.pc ≠ 0#16 ∧
      fetchStage s = { s with fl := some { raw := imemRead s.im s.pc, fetchPC := s.pc }, pc := s.pc + 1#16 }) := by
  unfold fetchStage
  cases h : fetchEnabled s
  · exact .inl ⟨rfl, rfl⟩
  · by_cases hw : imemRead s.im s.pc = 0#16
    · exact .inr (.inl ⟨rfl, hw, by simp [hw]⟩)
    · exact .inr (.inr ⟨rfl, hw, by simp [hw]⟩)

theorem fetchEnabled_iff (s : State) :
    fetchEnabled s = true ↔ s.stall = 0#2 ∧ s.pc.toNat < Config.imemWords := by
  simp [fetchEnabled, fetchable]

/-- The malformed stall value is 3: the only 2-bit value above `STALL_DEPTH` (R30). -/
theorem stallMalformed_iff (s : State) : stallMalformed s = true ↔ s.stall = 3#2 := by
  unfold stallMalformed
  generalize s.stall = k
  revert k
  decide

/-- Everything a cycle can do, in the order of the driver's tests (40_pipeline.md R111). -/
theorem cycle_cases (s : State) :
    (s.isFaulted = true ∧ cycle s = .next s) ∨
    (s.isFaulted = false ∧ s.stall = 3#2 ∧ cycle s = .fault .malformedStall) ∨
    (s.isFaulted = false ∧ s.stall = 0#2 ∧ s.dl = none ∧ cycle s = .next (finishCycle s)) ∨
    (∃ d, s.isFaulted = false ∧ s.stall = 0#2 ∧ s.dl = some d ∧
      cycle s = .next (finishCycle { effectOf d.instr s d with dl := none })) ∨
    (s.isFaulted = false ∧ s.stall ≠ 3#2 ∧ s.stall ≠ 0#2 ∧ cycle s = .next (stallCountdown s)) := by
  have hm := stallMalformed_iff s
  unfold cycle
  cases hf : s.isFaulted
  · by_cases h3 : s.stall = 3#2
    · exact .inr (.inl ⟨rfl, h3, by simp [hm.2 h3]⟩)
    · have hn : stallMalformed s = false := by simpa [h3] using hm
      by_cases h0 : s.stall = 0#2
      · rcases executeStage_cases s with ⟨hd, he⟩ | ⟨d, hd, he⟩
        · exact .inr (.inr (.inl ⟨rfl, h0, hd, by simp [hn, h0, he]⟩))
        · exact .inr (.inr (.inr (.inl ⟨d, rfl, h0, hd, by simp [hn, h0, he]⟩)))
      · exact .inr (.inr (.inr (.inr ⟨rfl, h3, h0, by simp [hn, h0]⟩)))
  · exact .inl ⟨rfl, by simp⟩

/-- The state that the effect of an instruction leaves: it never touches the instruction memory or the
fault record, and it keeps the canonical form of the data memory. -/
theorem effectOf_keeps (i : Instr) (s : State) (d : DecodeLatch) :
    (effectOf i s d).im = s.im ∧ (effectOf i s d).faulted = s.faulted ∧
    (Memory.wf Config.dmemBytes s.dm = true → Memory.wf Config.dmemBytes (effectOf i s d).dm = true) := by
  cases i <;> simp only [effectOf, writeArith, writeLogic]
  case beqz rs imm => split <;> exact ⟨rfl, rfl, id⟩
  case str rs imm => exact ⟨rfl, rfl, fun h => dmemWrite_wf h _ _⟩
  all_goals exact ⟨rfl, rfl, id⟩

end Sys2Proof.Machine
end

