-- ==== Sys2Proof/Laws/PerInstr.lean ====
section
/-! SUPPORT. One family of statements made per instruction, about the instruction as syntax: the three
fields of its word (30_encoding.md R71, R77). -/

namespace Sys2Proof

/-- The fields of `{op, rs, f}` are `op`, `rs` and `f`. -/
theorem fields_of_encodeFields (op : BitVec 4) (rs : RegIdx) (f : BitVec 6) :
    opcodeField (encodeFields op rs f) = op ∧ rsField (encodeFields op rs f) = rs ∧
    lowField (encodeFields op rs f) = f := by
  refine ⟨?_, ?_, ?_⟩ <;>
  · apply BitVec.eq_of_getLsbD_eq
    intro k hk
    simp only [opcodeField, rsField, lowField, encodeFields, BitVec.getLsbD_extractLsb',
      BitVec.getLsbD_append]
    interval_cases k <;> simp

end Sys2Proof

namespace Sys2Proof.Laws.EncodedFields

/-- The word of the instruction has the opcode's bits in `w[15:12]`, `rs` in `w[11:6]`, and `rt` or the low
6 bits of the immediate in `w[5:0]`. -/
def Statement (i : Instr) : Prop :=
  opcodeField (encode i) = i.opcode.toBits ∧ rsField (encode i) = i.rs ∧ lowField (encode i) = i.low

theorem add (rs rt : RegIdx) : Statement (.add rs rt) := fields_of_encodeFields _ _ _
theorem sub (rs rt : RegIdx) : Statement (.sub rs rt) := fields_of_encodeFields _ _ _
theorem mul (rs rt : RegIdx) : Statement (.mul rs rt) := fields_of_encodeFields _ _ _
theorem movi (rs : RegIdx) (imm : WorkInt) : Statement (.movi rs imm) := fields_of_encodeFields _ _ _
theorem beqz (rs : RegIdx) (imm : WorkInt) : Statement (.beqz rs imm) := fields_of_encodeFields _ _ _
theorem andi (rs : RegIdx) (imm : WorkInt) : Statement (.andi rs imm) := fields_of_encodeFields _ _ _
theorem eor (rs rt : RegIdx) : Statement (.eor rs rt) := fields_of_encodeFields _ _ _
theorem br (rs rt : RegIdx) : Statement (.br rs rt) := fields_of_encodeFields _ _ _
theorem sal (rs : RegIdx) (imm : WorkInt) : Statement (.sal rs imm) := fields_of_encodeFields _ _ _
theorem sar (rs : RegIdx) (imm : WorkInt) : Statement (.sar rs imm) := fields_of_encodeFields _ _ _
theorem ldr (rs : RegIdx) (imm : WorkInt) : Statement (.ldr rs imm) := fields_of_encodeFields _ _ _
theorem str (rs : RegIdx) (imm : WorkInt) : Statement (.str rs imm) := fields_of_encodeFields _ _ _

end Sys2Proof.Laws.EncodedFields
end

