-- ==== Sys2Proof/Laws/Pipeline.lean ====
section
/-! SUPPORT. What the decoder, an instruction's effect, the end of a cycle and a whole step can do, each said
once. Proofs about runs start from `step_cases` and `finishCycle_cases`. -/

namespace Sys2Proof

open Sys2Proof.Machine

/-- The opcode map and its inverse. -/
theorem Opcode.ofBits_toBits (op : Opcode) : Opcode.ofBits op.toBits = some op := by cases op <;> rfl

theorem Opcode.ofBits_eq_none_iff (b : BitVec 4) : Opcode.ofBits b = none ↔ 11 < b.toNat := by
  revert b; decide

theorem Opcode.toBits_of_ofBits {b : BitVec 4} {op : Opcode} (h : Opcode.ofBits b = some op) :
    op.toBits = b := by
  revert op b; decide

/-- The one way the decoder rejects. -/
theorem decodeFields_error {w : Word} {e : DecodeError} (h : decodeFields w = .error e) :
    e = .invalidOpcode (opcodeField w) ∧ 11 < (opcodeField w).toNat := by
  unfold decodeFields at h
  split at h
  · cases h
    exact ⟨rfl, (Opcode.ofBits_eq_none_iff _).1 ‹_›⟩
  · cases h

/-- The one way the decoder accepts. -/
theorem decodeFields_ok {w : Word} {c : Decoded} (h : decodeFields w = .ok c) :
    c.opcode.toBits = opcodeField w ∧ c.fmt = c.opcode.format ∧ c.rs = rsField w ∧
    c.second = secondOf c.fmt (lowField w) := by
  unfold decodeFields at h
  split at h
  · cases h
  · cases h
    exact ⟨Opcode.toBits_of_ofBits ‹_›, rfl, rfl, rfl⟩

end Sys2Proof

namespace Sys2Proof.Machine

/-- What an instruction does to the pipeline's own state: a control transfer, or nothing. -/
theorem effectOf_pipeline (s : State) (d : DecodeLatch) :
    (d.redirect = none → SamePipeline s (effectOf d.instr s d)) ∧
    (∀ p, d.redirect = some p → effectOf d.instr s d = s.transferTo p) := by
  unfold DecodeLatch.redirect DecodeLatch.instr instrOf
  cases h : d.opcode <;> simp [effectOf, SamePipeline, writeArith, writeLogic]
  by_cases ha : d.a = 0#8 <;> simp [ha]

/-- What an instruction does to the registers: at most one write, to `rs`. -/
theorem effectOf_reg (s : State) (d : DecodeLatch) (j : RegIdx) :
    (effectOf d.instr s d).reg j =
      match registerWrite s.dm d with
      | some v => if j = d.rs then v else s.reg j
      | none => s.reg j := by
  unfold registerWrite DecodeLatch.instr instrOf
  cases h : d.opcode <;> simp [effectOf, writeArith, writeLogic, State.reg_setReg]
  split <;> simp

/-- What an instruction does to the data memory: nothing, but for STR. -/
theorem effectOf_dm (s : State) (d : DecodeLatch) :
    (effectOf d.instr s d).dm = if d.opcode = .str then dmemWrite s.dm d.b d.a else s.dm := by
  unfold DecodeLatch.instr instrOf
  cases h : d.opcode <;> simp [effectOf, writeArith, writeLogic, effectiveAddress]
  split <;> simp

/-- The end of a cycle, Decode and Fetch, touches only the latches, `pc` and the fault record. -/
theorem finishCycle_keeps (s : State) :
    (finishCycle s).x = s.x ∧ (finishCycle s).sr = s.sr ∧ (finishCycle s).dm = s.dm ∧
    (finishCycle s).im = s.im ∧ (finishCycle s).stall = s.stall := by
  have hd : (decodeStage s).x = s.x ∧ (decodeStage s).sr = s.sr ∧ (decodeStage s).dm = s.dm ∧
      (decodeStage s).im = s.im ∧ (decodeStage s).stall = s.stall := by
    rcases decodeStage_cases s with ⟨_, h⟩ | ⟨_, _, h⟩ | ⟨_, _, _, _, _, h⟩ | ⟨_, _, _, _, _, h⟩ <;>
      rw [h] <;> exact ⟨rfl, rfl, rfl, rfl, rfl⟩
  have hf : ∀ t : State, (fetchStage t).x = t.x ∧ (fetchStage t).sr = t.sr ∧ (fetchStage t).dm = t.dm ∧
      (fetchStage t).im = t.im ∧ (fetchStage t).stall = t.stall := by
    intro t
    rcases fetchStage_cases t with ⟨_, h⟩ | ⟨_, _, h⟩ | ⟨_, _, h⟩ <;>
      rw [h] <;> exact ⟨rfl, rfl, rfl, rfl, rfl⟩
  unfold finishCycle
  dsimp only
  split
  · exact hd
  · have h := hf (decodeStage s)
    simp_all

/-- While the core is stalled, Decode and Fetch do nothing. -/
theorem finishCycle_of_stalled {s : State} (h : s.stall ≠ 0#2) (hf : s.faulted = none) :
    finishCycle s = s := by
  have h1 : decodeStage s = s := by simp [decodeStage, h]
  simp [finishCycle, h1, State.isFaulted, hf, fetchStage, fetchEnabled, h]

/-- Everything Decode and Fetch can do in a running core with an Empty `DL`: the decode fault; or Decode
fills `DL` or not, and Fetch is past the bound, meets the sentinel, or fills `FL`. -/
theorem finishCycle_cases {s : State} (hs : s.stall = 0#2) (hf : s.faulted = none) (hd : s.dl = none) :
    (∃ f e, s.fl = some f ∧ decodeFields f.raw = .error e ∧
      finishCycle s = s.takeDecodeFault f.fetchPC f.raw) ∨
    (∃ filled : Option DecodeLatch,
      ((s.fl = none ∧ filled = none) ∨
        (∃ f c, s.fl = some f ∧ decodeFields f.raw = .ok c ∧ filled = some (latchOf s f.raw f.fetchPC c))) ∧
      ((Config.imemWords ≤ s.pc.toNat ∧ finishCycle s = { s with fl := none, dl := filled }) ∨
       (s.pc.toNat < Config.imemWords ∧ imemRead s.im s.pc = 0#16 ∧
        finishCycle s = { s with fl := none, dl := filled, pc := 1024#16 }) ∨
       (s.pc.toNat < Config.imemWords ∧ imemRead s.im s.pc ≠ 0#16 ∧
        finishCycle s =
          { s with fl := some ⟨imemRead s.im s.pc, s.pc⟩, dl := filled, pc := s.pc + 1#16 }))) := by
  have fetch : ∀ filled : Option DecodeLatch,
      decodeStage s = { s with fl := none, dl := filled } →
      (Config.imemWords ≤ s.pc.toNat ∧ finishCycle s = { s with fl := none, dl := filled }) ∨
      (s.pc.toNat < Config.imemWords ∧ imemRead s.im s.pc = 0#16 ∧
        finishCycle s = { s with fl := none, dl := filled, pc := 1024#16 }) ∨
      (s.pc.toNat < Config.imemWords ∧ imemRead s.im s.pc ≠ 0#16 ∧
        finishCycle s =
          { s with fl := some ⟨imemRead s.im s.pc, s.pc⟩, dl := filled, pc := s.pc + 1#16 }) := by
    intro filled h
    have hfin : finishCycle s = fetchStage { s with fl := none, dl := filled } := by
      unfold finishCycle
      rw [h]
      simp [State.isFaulted, hf]
    have hen := fetchEnabled_iff { s with fl := none, dl := filled }
    rw [hfin]
    rcases fetchStage_cases { s with fl := none, dl := filled } with ⟨g, e⟩ | ⟨g, z, e⟩ | ⟨g, z, e⟩
    · refine .inl ⟨?_, e⟩
      by_contra hc
      exact absurd (hen.2 ⟨hs, Nat.lt_of_not_le hc⟩) (by simp [g])
    · exact .inr (.inl ⟨(hen.1 g).2, z, e⟩)
    · exact .inr (.inr ⟨(hen.1 g).2, z, e⟩)
  rcases decodeStage_cases s with ⟨h, _⟩ | ⟨_, h1, h⟩ | ⟨f, e, _, h1, h2, h⟩ | ⟨f, c, _, h1, h2, h⟩
  · exact absurd hs h
  · refine .inr ⟨none, .inl ⟨h1, rfl⟩, fetch none ?_⟩
    rw [h]
    cases s
    simp_all
  · refine .inl ⟨f, e, h1, h2, ?_⟩
    simp [finishCycle, h, State.isFaulted]
  · exact .inr ⟨_, .inr ⟨f, c, h1, h2, rfl⟩, fetch _ h⟩

/-- Everything one step can do: nothing in a faulted core; the stop on a malformed stall counter; a
running cycle with an Empty `DL`, with an instruction that makes no control transfer, or with one that
makes one; and the two stall cycles. -/
theorem step_cases (s : State) :
    (s.faulted ≠ none ∧ step s = .next s) ∨
    (s.faulted = none ∧ s.stall = 3#2 ∧ step s = .fault .malformedStall) ∨
    (s.faulted = none ∧ s.stall = 0#2 ∧ s.dl = none ∧ step s = .next (finishCycle s)) ∨
    (∃ d, Executes s d ∧ d.redirect = none ∧
      step s = .next (finishCycle { effectOf d.instr s d with dl := none })) ∨
    (∃ d p, Executes s d ∧ d.redirect = some p ∧ step s = .next (s.transferTo p)) ∨
    (s.faulted = none ∧ s.stall = 1#2 ∧
      step s = .next { s with stall := 0#2, fl := none, dl := none }) ∨
    (s.faulted = none ∧ s.stall = 2#2 ∧ step s = .next { s with stall := 1#2 }) := by
  have running : s.isFaulted = false ↔ s.faulted = none := by simp [State.isFaulted]
  rcases cycle_cases s with ⟨hf, e⟩ | ⟨hf, h3, e⟩ | ⟨hf, h0, hd, e⟩ | ⟨d, hf, h0, hd, e⟩ | ⟨hf, h3, h0, e⟩
  · refine .inl ⟨fun h => ?_, e⟩
    rw [running.2 h] at hf
    cases hf
  · exact .inr (.inl ⟨running.1 hf, h3, e⟩)
  · exact .inr (.inr (.inl ⟨running.1 hf, h0, hd, e⟩))
  · cases hr : d.redirect with
    | none => exact .inr (.inr (.inr (.inl ⟨d, ⟨running.1 hf, h0, hd⟩, hr, e⟩)))
    | some p =>
      refine .inr (.inr (.inr (.inr (.inl ⟨d, p, ⟨running.1 hf, h0, hd⟩, hr, ?_⟩))))
      rw [(effectOf_pipeline s d).2 p hr] at e
      rwa [finishCycle_of_stalled (s := { s.transferTo p with dl := none })
        (show (s.transferTo p).stall ≠ 0#2 by simp) (running.1 hf)] at e
  · have h12 : s.stall = 1#2 ∨ s.stall = 2#2 := by
      revert h3 h0
      generalize s.stall = k
      revert k
      decide
    have e' : step s = .next (stallCountdown s) := e
    rcases h12 with h | h
    · exact .inr (.inr (.inr (.inr (.inr (.inl ⟨running.1 hf, h, by rw [e']; simp [stallCountdown, h]⟩)))))
    · exact .inr (.inr (.inr (.inr (.inr (.inr ⟨running.1 hf, h, by rw [e']; simp [stallCountdown, h]⟩)))))

end Sys2Proof.Machine
end

