-- ==== Sys2Proof/Tests/Slice0.lean ====
section
/-! SUPPORT. The model's own tests: expected values are those of 95_test_vectors.md or are worked out from
the spec's encodings by hand. Then, for every statement with hypotheses, a witness that meets them. -/

namespace Sys2Proof.Tests

open Sys2Proof Sys2Proof.Machine

/-! ## Helpers -/

/-- The outcome is a next state that has the property. -/
def nextHas (o : Host.Outcome State Fault Refusal) (p : State → Bool) : Bool :=
  match o with
  | .next t => p t
  | .fault _ => false
  | .refused _ => false

/-- The next state of an outcome, or the reset state. -/
def nextState (o : Host.Outcome State Fault Refusal) : State :=
  match o with
  | .next t => t
  | .fault _ => State.reset
  | .refused _ => State.reset

/-- A running state whose `DL` holds an instruction from address `pc` with operands `a` and `b`. -/
def holding (op : Opcode) (rs : RegIdx) (second pc : WorkInt) (a : Byte) (b : WorkInt) : State :=
  { State.reset with
    dl := some { raw := 0#16, instrPC := pc, opcode := op, rs := rs, second := second, sourceValue := a, secondValue := b } }

/-- The flags C, V and S set, as the vectors of 95_test_vectors.md 2.5 and 2.7 have them before. -/
def cvsSet (s : State) : State := { s with sr := { z := false, n := false, c := true, v := true, s := true } }

/-- `x[rs]` and the flags Z, N, C, V, S of the next state. -/
def gives (o : Host.Outcome State Fault Refusal) (rs : RegIdx) (r : Byte) (z n c v sg : Bool) : Bool :=
  nextHas o fun t => decide (t.reg rs = r ∧ t.sr = { z := z, n := n, c := c, v := v, s := sg })

/-- The reset state with one program word placed to execute next. -/
def placed (w : Nat) : State := State.reset.withFetchWord 16 w

/-! ## Parameters and types -/

theorem test_register_count : State.reset.x.toList.length = 64 := by decide
theorem test_largest_values : (BitVec.allOnes Config.xlen).toNat = 255 ∧ (BitVec.allOnes Config.wlen).toNat = 65535 := by decide
theorem witness_Sizes : (1#8 ≠ 0x00#8) ∧ State.reset.stall = 0#2 ∧
    dmemRead (dmemWrite [] 2047#16 1#8) 2047#16 = 1#8 ∧ dmemRead (dmemWrite [] 2048#16 1#8) 2048#16 ≠ 1#8 := by decide

/-! ## Well-formedness: the smoke test -/

theorem test_immediate_200_refused : Instr.encodable (.movi 1#6 200#16) = false := by decide
theorem test_immediate_32_refused : Instr.encodable (.sal 1#6 32#16) = false := by decide
theorem test_immediate_minus_33_refused : Instr.encodable (.ldr 1#6 0xFFDF#16) = false := by decide
theorem test_immediate_3000_refused : Instr.wellFormed (.ldr 2#6 3000#16) = false := by decide
theorem test_sentinel_refused : Instr.wellFormed (.add 0#6 0#6) = false := by decide
theorem test_bounds_accepted :
    (Instr.wellFormed (.str 63#6 31#16) && Instr.wellFormed (.beqz 0#6 0xFFE0#16)) = true := by decide

/-! ## Decoding: one word of each instruction, written out field by field from R72, R73 and R76 -/

theorem test_decode_add : decode (0b0000#4 ++ 1#6 ++ 2#6 : BitVec 16) = .ok (.add 1#6 2#6) := by decide
theorem test_decode_sub : decode 0b0001111111000001#16 = .ok (.sub 63#6 1#6) := by decide
theorem test_decode_mul : decode 0b0010000010000100#16 = .ok (.mul 2#6 4#6) := by decide
theorem test_decode_movi : decode 0b0011000001111001#16 = .ok (.movi 1#6 (-7#16)) := by decide
theorem test_decode_beqz : decode 0b0100000000111101#16 = .ok (.beqz 0#6 (-3#16)) := by decide
theorem test_decode_andi : decode 0b0101000010001111#16 = .ok (.andi 2#6 15#16) := by decide
theorem test_decode_eor : decode 0b0110000010000001#16 = .ok (.eor 2#6 1#6) := by decide
theorem test_decode_br : decode 0b0111000100000101#16 = .ok (.br 4#6 5#6) := by decide
theorem test_decode_sal : decode 0b1000000000111111#16 = .ok (.sal 0#6 0xFFFF#16) := by decide
theorem test_decode_sar : decode 0b1001000001100000#16 = .ok (.sar 1#6 0xFFE0#16) := by decide
theorem test_decode_ldr : decode 0b1010000010111111#16 = .ok (.ldr 2#6 0xFFFF#16) := by decide
theorem test_decode_str : decode 0b1011011111100000#16 = .ok (.str 31#6 0xFFE0#16) := by decide
theorem test_decode_smallest_invalid : decode 0xC000#16 = .error (.invalidOpcode 12#4) := by decide
theorem test_decode_largest_invalid : decode 0xFFFF#16 = .error (.invalidOpcode 15#4) := by decide
theorem test_encode_words :
    encode (.movi 1#6 (-7#16)) = 0x3079#16 ∧ encode (.str 1#6 0xFFE0#16) = 0xB060#16 ∧
    encode (.beqz 0#6 (-4#16)) = 0x403C#16 ∧ encode (.br 1#6 0#6) = 0x7040#16 ∧
    encode (.sar 1#6 1#16) = 0x9041#16 := by decide
theorem test_table_word : decodeTableWord 16 0x1FC1 = some (.sub 63#6 1#6) := by decide
theorem test_table_word_invalid : decodeTableWord 16 0xE03F = none := by decide

/-! ## Instructions: at most two vectors each (95_test_vectors.md 2.4 to 2.9) -/

theorem test_add_wraps : gives (exec (.add 1#6 2#6) (holding .add 1 2 0 0x80 0x80)) 1 0x00 true false true true true = true := by decide
theorem test_add_overflows : gives (exec (.add 1#6 2#6) (holding .add 1 2 0 0x7F 0x01)) 1 0x80 false true false true false = true := by decide
theorem test_sub_borrows : gives (exec (.sub 1#6 2#6) (holding .sub 1 2 0 0x00 0x80)) 1 0x80 false true true true false = true := by decide
theorem test_sub_overflows : gives (exec (.sub 1#6 2#6) (holding .sub 1 2 0 0x80 0x01)) 1 0x7F false false false true true = true := by decide
theorem test_mul_keeps_low_byte : gives (exec (.mul 1#6 2#6) (cvsSet (holding .mul 1 2 0 0xFF 0xFF))) 1 0x01 false false true true true = true := by decide
theorem test_mul_zero : gives (exec (.mul 1#6 2#6) (cvsSet (holding .mul 1 2 0 0x10 0x10))) 1 0x00 true false true true true = true := by decide
theorem test_movi_negative : gives (exec (.movi 1#6 0xFFE0#16) (cvsSet (holding .movi 1 0xFFE0 0 0 0xFFE0))) 1 0xE0 false false true true true = true := by decide
theorem test_andi_sign_extends : gives (exec (.andi 1#6 0xFFE0#16) (cvsSet (holding .andi 1 0xFFE0 0 0xAA 0xFFE0))) 1 0xA0 false true true true true = true := by decide
theorem test_andi_zero : gives (exec (.andi 1#6 16#16) (cvsSet (holding .andi 1 16 0 0x0F 16))) 1 0x00 true false true true true = true := by decide
theorem test_eor : gives (exec (.eor 1#6 2#6) (cvsSet (holding .eor 1 2 0 0x0F 0xF0))) 1 0xFF false true true true true = true := by decide
theorem test_sal_seven : gives (exec (.sal 1#6 7#16) (cvsSet (holding .sal 1 7 0 0x01 7))) 1 0x80 false true true true true = true := by decide
theorem test_sal_negative_amount : gives (exec (.sal 1#6 0xFFFF#16) (cvsSet (holding .sal 1 0xFFFF 0 0x01 0xFFFF))) 1 0x00 true false true true true = true := by decide
theorem test_sar_one : gives (exec (.sar 1#6 1#16) (cvsSet (holding .sar 1 1 0 0x81 1))) 1 0xC0 false true true true true = true := by decide
theorem test_sar_negative_amount : gives (exec (.sar 1#6 0xFFFF#16) (cvsSet (holding .sar 1 0xFFFF 0 0x80 0xFFFF))) 1 0xFF false true true true true = true := by decide
theorem test_ldr : nextHas (exec (.ldr 2#6 10#16) { holding .ldr 2 10 0 0 10 with dm := [(10, 5#8)] }) (fun t => t.reg 2 == 5#8) = true := by decide
theorem test_ldr_out_of_range : nextHas (exec (.ldr 3#6 0xFFFF#16) ((holding .ldr 3 0xFFFF 0 0x77 0xFFFF).setReg 3 0x77)) (fun t => t.reg 3 == 0#8) = true := by decide
theorem test_str : nextHas (exec (.str 1#6 31#16) (holding .str 1 31 0 0xAB 31)) (fun t => t.dm == [(31, 0xAB#8)]) = true := by decide
theorem test_str_out_of_range : nextHas (exec (.str 1#6 0xFFE0#16) (holding .str 1 0xFFE0 0 0xF9 0xFFE0)) (fun t => t.dm == []) = true := by decide
theorem test_beqz_taken_wraps : nextHas (exec (.beqz 1#6 0xFFE0#16) (holding .beqz 1 0xFFE0 0 0 0xFFE0)) (fun t => t.pc == 65505#16 && t.stall == 2#2) = true := by decide
theorem test_beqz_not_taken : nextHas (exec (.beqz 1#6 5#16) (holding .beqz 1 5 0 1 5)) (fun t => t.pc == 0#16 && t.stall == 0#2 && t.dl.isSome) = true := by decide
theorem test_br_low_byte_unsigned : nextHas (exec (.br 1#6 2#6) (holding .br 1 2 0 0x03 0xFF)) (fun t => t.pc == 1023#16 && t.dl.isNone) = true := by decide

/-! ## The pipeline: single cycles of the snapshots of 95_test_vectors.md -/

/-- S1, the state after cycle 3: MOVI R2, 3 in `DL` and ADD R1, R2 in `FL`. -/
def s1AfterThree : State :=
  { State.reset with
    im := [(0, 0x3045#16), (1, 0x3083#16), (2, 0x0042#16)]
    x := State.reset.x.set 1 5#8
    pc := 3#16
    fl := some { raw := 0x0042#16, fetchPC := 2#16 }
    dl := some { raw := 0x3083#16, instrPC := 1#16, opcode := .movi, rs := 2, second := 3, sourceValue := 0, secondValue := 3 } }

/-- P6, the state after cycle 2: MOVI R1, 1 in `DL` and the invalid word C123 in `FL`. -/
def p6AfterTwo : State :=
  { State.reset with
    im := [(0, 0x3041#16), (1, 0xC123#16), (2, 0x3082#16)]
    pc := 2#16
    fl := some { raw := 0xC123#16, fetchPC := 1#16 }
    dl := some { raw := 0x3041#16, instrPC := 0#16, opcode := .movi, rs := 1, second := 1, sourceValue := 0, secondValue := 1 } }

/-- P7, the state after cycle 2: a taken BEQZ R0, 1 in `DL` and the invalid word F000 in `FL`. -/
def p7AfterTwo : State :=
  { State.reset with
    im := [(0, 0x4001#16), (1, 0xF000#16), (2, 0x3082#16)]
    pc := 2#16
    fl := some { raw := 0xF000#16, fetchPC := 1#16 }
    dl := some { raw := 0x4001#16, instrPC := 0#16, opcode := .beqz, rs := 0, second := 1, sourceValue := 0, secondValue := 1 } }

/-- S1 C4: ADD reads `x[2] = 3`, written in the same cycle, and Fetch meets the sentinel. -/
theorem test_same_cycle_visibility : nextHas (step s1AfterThree) (fun t =>
    t.pc == 1024#16 && t.fl.isNone && (observe t).dl.sourceValue == 5#8 && (observe t).dl.secondValue == 3#16) = true := by decide
/-- P6 C3: Execute's write stands, the fault is recorded, Fetch does not run. -/
theorem test_decode_fault : nextHas (step p6AfterTwo) (fun t =>
    t.reg 1 == 1#8 && t.faulted == some { pc := 1#16, word := 0xC123#16 } && t.pc == 2#16 && t.fl == p6AfterTwo.fl && t.dl.isNone) = true := by decide
/-- P7 C3: no fault on the wrong path. -/
theorem test_wrong_path : nextHas (step p7AfterTwo) (fun t =>
    t.pc == 2#16 && t.stall == 2#2 && t.faulted.isNone && t.fl.isNone) = true := by decide
/-- P9: the empty program is halted after one cycle. -/
theorem test_empty_program_halts : nextHas (step State.reset) (fun t => t.halted && t.pc == 1024#16) = true := by decide
/-- The malformed stall value stops the machine. -/
theorem test_malformed_stall : (match step { State.reset with stall := 3#2 } with | .fault r => r == .malformedStall | _ => false) = true := by decide
/-- A placed word is what two cycles of a run leave: MOVI R1, 5 alone in the instruction memory. -/
theorem test_placed_is_reachable : (match step { State.reset with im := [(0, 0x3045#16)] } with
    | .next t => nextHas (step t) (fun u => u == placed 0x3045)
    | _ => false) = true := by decide
theorem test_placed_runs : nextHas (step (placed 0x3045)) (fun t => t.reg 1 == 5#8) = true := by decide
theorem test_placed_invalid_faults : nextHas (step (placed 0xC000)) (fun t => t.faulted == some { pc := 0#16, word := 0xC000#16 }) = true := by decide
theorem test_effects_of_add : cycleEffects (holding .add 1 2 0 0xFF 0x01) =
    { reg := some (1#6, 0#8), mem := none, redirect := none, flagsWe := 0b11111#5 } := by decide
theorem test_effects_of_str : cycleEffects (holding .str 1 10 0 5 10) =
    { reg := none, mem := some (10#11, 5#8), redirect := none, flagsWe := 0#5 } := by decide

/-! ## Witnesses: states and operands that meet the hypotheses of the statements -/

/-- `d` for the state `holding …`. -/
def held (op : Opcode) (rs : RegIdx) (second pc : WorkInt) (a : Byte) (b : WorkInt) : DecodeLatch :=
  { raw := 0#16, instrPC := pc, opcode := op, rs := rs, second := second, sourceValue := a, secondValue := b }

/-- The latches of S1 after cycle 3, P6 after cycle 2 and P7 after cycle 2. -/
def s1Latch : DecodeLatch :=
  { raw := 0x3083#16, instrPC := 1#16, opcode := .movi, rs := 2, second := 3, sourceValue := 0, secondValue := 3 }
def p6Latch : DecodeLatch :=
  { raw := 0x3041#16, instrPC := 0#16, opcode := .movi, rs := 1, second := 1, sourceValue := 0, secondValue := 1 }
def p7Latch : DecodeLatch :=
  { raw := 0x4001#16, instrPC := 0#16, opcode := .beqz, rs := 0, second := 1, sourceValue := 0, secondValue := 1 }

/-- A halted core that still counts down (P11 after cycle 4). -/
def p11AfterFour : State := { State.reset with pc := 1024#16, stall := 2#2 }
/-- P6 after its decode fault. -/
def p6Faulted : State := nextState (step p6AfterTwo)

-- Encoding and decoding.
theorem witness_EncodeThenDecode : (Instr.ldr 63#6 0xFFE0#16).encodable = true ∧ (Instr.str 0#6 31#16).encodable = true := by decide
theorem witness_DecodeThenEncode : decode 0xBFFF#16 = .ok (.str 63#6 0xFFFF#16) ∧ decode 0x0000#16 = .ok (.add 0#6 0#6) := by decide
theorem witness_DecoderRecord :
    11 < ((0xC000#16).extractLsb' 12 4).toNat ∧ ((0xBFFF#16).extractLsb' 12 4).toNat ≤ 11 ∧
    decodeFields 0xBFFF#16 = .ok { opcode := .str, fmt := .immediate, rs := 63#6, second := 0xFFFF#16 } ∧
    decodeFields 0x0FFF#16 = .ok { opcode := .add, fmt := .register, rs := 63#6, second := 63#16 } := by decide
theorem witness_SignExtender : decodeFields 0xA0A0#16 = .ok { opcode := .ldr, fmt := .immediate, rs := 2#6, second := 0xFFE0#16 } := by decide

-- A step runs the decoded instruction.
theorem witness_StepRunsDecoded : Executes s1AfterThree s1Latch ∧
    decodeFields s1Latch.raw = .ok (DecodeLatch.decoded s1Latch) ∧ decode s1Latch.raw = .ok (.movi 2#6 3#16) := by decide
theorem witness_FetchedWord :
    let s := { State.reset with im := [(1023, 0x0042#16)], pc := 1023#16 }
    s.faulted = none ∧ s.stall = 0#2 ∧ s.fl = none ∧ s.dl = none ∧ s.pc.toNat < Config.imemWords ∧
    imemRead s.im s.pc ≠ 0#16 ∧ decode (imemRead s.im s.pc) = .ok (.add 1#6 2#6) := by decide
theorem witness_EmptyLatch : State.reset.dl = none := by decide

-- The instructions: the latch of each, with the operands at the bounds of each clause.
theorem witness_Add : (holding .add 1 2 0 0xFF 0x01).dl = some (held .add 1 2 0 0xFF 0x01) := by decide
theorem witness_Sub : (holding .sub 1 2 0 0x80 0x01).dl = some (held .sub 1 2 0 0x80 0x01) := by decide
theorem witness_Mul : (holding .mul 1 2 0 0xFF 0xFF).dl = some (held .mul 1 2 0 0xFF 0xFF) := by decide
theorem witness_Movi : (holding .movi 1 0xFFE0 0 0 0xFFE0).dl = some (held .movi 1 0xFFE0 0 0 0xFFE0) ∧
    (held .movi 1 0xFFE0 0 0 0xFFE0).secondValue = 0xFFE0#16 ∧ immInRange 0xFFE0#16 = true := by decide
theorem witness_Andi : (holding .andi 1 0xFFE0 0 0xAA 0xFFE0).dl = some (held .andi 1 0xFFE0 0 0xAA 0xFFE0) ∧
    (held .andi 1 0xFFE0 0 0xAA 0xFFE0).secondValue = 0xFFE0#16 := by decide
theorem witness_Eor : (holding .eor 1 2 0 0xAA 0x55).dl = some (held .eor 1 2 0 0xAA 0x55) := by decide
theorem witness_Sal_at_seven_and_eight :
    (holding .sal 1 7 0 1 7).dl = some (held .sal 1 7 0 1 7) ∧ (held .sal 1 7 0 1 7).secondValue = 7#16 ∧ (7#16).toNat < 8 ∧
    (holding .sal 1 8 0 1 8).dl = some (held .sal 1 8 0 1 8) ∧ (held .sal 1 8 0 1 8).secondValue = 8#16 ∧ 8 ≤ (8#16).toNat := by decide
theorem witness_Sar_at_seven_and_eight :
    (holding .sar 1 7 0 0x80 7).dl = some (held .sar 1 7 0 0x80 7) ∧ (held .sar 1 7 0 0x80 7).secondValue = 7#16 ∧ (7#16).toNat < 8 ∧
    (holding .sar 1 8 0 0x80 8).dl = some (held .sar 1 8 0 0x80 8) ∧ (held .sar 1 8 0 0x80 8).secondValue = 8#16 ∧ 8 ≤ (8#16).toNat := by decide
theorem witness_Ldr_at_2047_and_2048 :
    (holding .ldr 1 2047 0 0 2047).dl = some (held .ldr 1 2047 0 0 2047) ∧ (held .ldr 1 2047 0 0 2047).secondValue = 2047#16 ∧
    (2047#16).toNat < Config.dmemBytes ∧
    (holding .ldr 1 2048 0 0 2048).dl = some (held .ldr 1 2048 0 0 2048) ∧ (held .ldr 1 2048 0 0 2048).secondValue = 2048#16 ∧
    Config.dmemBytes ≤ (2048#16).toNat := by decide
theorem witness_Str_at_2047_and_2048 :
    (holding .str 1 2047 0 5 2047).dl = some (held .str 1 2047 0 5 2047) ∧ (held .str 1 2047 0 5 2047).secondValue = 2047#16 ∧
    Memory.wf Config.dmemBytes (holding .str 1 2047 0 5 2047).dm = true ∧ (2047#16).toNat < Config.dmemBytes ∧
    (holding .str 1 2048 0 5 2048).dl = some (held .str 1 2048 0 5 2048) ∧ (held .str 1 2048 0 5 2048).secondValue = 2048#16 ∧
    Memory.wf Config.dmemBytes (holding .str 1 2048 0 5 2048).dm = true ∧ Config.dmemBytes ≤ (2048#16).toNat := by decide
theorem witness_Beqz_taken_and_not :
    (holding .beqz 1 31 1023 0 31).dl = some (held .beqz 1 31 1023 0 31) ∧ (held .beqz 1 31 1023 0 31).secondValue = 31#16 ∧
    (held .beqz 1 31 1023 0 31).sourceValue = 0#8 ∧
    (holding .beqz 1 31 1023 1 31).dl = some (held .beqz 1 31 1023 1 31) ∧ (held .beqz 1 31 1023 1 31).secondValue = 31#16 ∧
    (held .beqz 1 31 1023 1 31).sourceValue ≠ 0#8 := by decide
theorem witness_Br : (holding .br 1 2 0 0x03 0xFF).dl = some (held .br 1 2 0 0x03 0xFF) := by decide

-- Flags and registers over all instructions: exec answers a next state.
theorem witness_AddSubFlags :
    (holding .add 1 2 0 0x80 0x80).dl = some (held .add 1 2 0 0x80 0x80) ∧
    exec (.add 1#6 2#6) (holding .add 1 2 0 0x80 0x80) = .next (nextState (exec (.add 1#6 2#6) (holding .add 1 2 0 0x80 0x80))) ∧
    exec (.sub 1#6 2#6) (holding .sub 1 2 0 0 0x80) = .next (nextState (exec (.sub 1#6 2#6) (holding .sub 1 2 0 0 0x80))) :=
  ⟨rfl, rfl, rfl⟩
theorem witness_ZeroAndNegative : (holding .eor 1 2 0 7 7).dl = some (held .eor 1 2 0 7 7) ∧
    exec (.eor 1#6 2#6) (holding .eor 1 2 0 7 7) = .next (nextState (exec (.eor 1#6 2#6) (holding .eor 1 2 0 7 7))) ∧
    (Instr.eor 1#6 2#6).opcode ∈ [Opcode.add, .sub, .mul, .andi, .eor, .sal, .sar] :=
  ⟨rfl, rfl, by decide⟩
theorem witness_UnwrittenFlags :
    exec (.mul 1#6 2#6) (holding .mul 1 2 0 7 7) = .next (nextState (exec (.mul 1#6 2#6) (holding .mul 1 2 0 7 7))) ∧
    (Instr.mul 1#6 2#6).opcode ∈ [Opcode.mul, .andi, .eor, .sal, .sar] ∧
    exec (.str 1#6 2#16) (holding .str 1 2 0 7 2) = .next (nextState (exec (.str 1#6 2#16) (holding .str 1 2 0 7 2))) ∧
    (Instr.str 1#6 2#16).opcode ∈ [Opcode.movi, .ldr, .str, .beqz, .br] :=
  ⟨rfl, by decide, rfl, by decide⟩
theorem witness_OneRegisterWritten : step s1AfterThree = .next (nextState (step s1AfterThree)) ∧
    (nextState (step s1AfterThree)).reg 2 ≠ s1AfterThree.reg 2 := ⟨rfl, by decide⟩

-- Stages and the cycle driver.
theorem witness_FetchStage :
    (let s := { State.reset with im := [(1023, 0x0042#16)], pc := 1023#16 }
     s.stall = 0#2 ∧ s.pc.toNat < Config.imemWords ∧ imemRead s.im s.pc ≠ 0#16) ∧
    (State.reset.stall = 0#2 ∧ State.reset.pc.toNat < Config.imemWords ∧ imemRead State.reset.im State.reset.pc = 0#16) ∧
    (Config.imemWords ≤ ({ State.reset with pc := 1024#16 } : State).pc.toNat) ∧ p11AfterFour.stall ≠ 0#2 := by decide
theorem witness_DecodeSameCycle : s1AfterThree.faulted = none ∧ s1AfterThree.stall = 0#2 ∧
    s1AfterThree.fl = some { raw := 0x0042#16, fetchPC := 2#16 } ∧ (∀ d ∈ s1AfterThree.dl, d.redirect = none) ∧
    decodeFields 0x0042#16 = .ok { opcode := .add, fmt := .register, rs := 1#6, second := 2#16 } ∧
    executeStage s1AfterThree = .next (nextState (executeStage s1AfterThree)) :=
  ⟨by decide, by decide, by decide, by decide, by decide, rfl⟩
theorem witness_ControlTransfer :
    (Executes p7AfterTwo p7Latch ∧ p7Latch.redirect = some 2#16 ∧ p7Latch.opcode = .beqz ∧ p7Latch.sourceValue = 0#8) ∧
    (Executes (holding .br 1 2 0 4 0) (held .br 1 2 0 4 0) ∧ (held .br 1 2 0 4 0).opcode = .br) ∧
    (Executes (holding .beqz 1 5 0 1 5) (held .beqz 1 5 0 1 5) ∧ (held .beqz 1 5 0 1 5).opcode = .beqz ∧
      (held .beqz 1 5 0 1 5).sourceValue ≠ 0#8) := by decide
theorem witness_TargetFetched : Executes p7AfterTwo p7Latch ∧ p7Latch.redirect = some 2#16 ∧
    (2#16).toNat < Config.imemWords ∧ imemRead p7AfterTwo.im 2#16 ≠ 0#16 := by decide
theorem witness_Stalled : p11AfterFour.faulted = none ∧ p11AfterFour.stall = 2#2 ∧
    ({ State.reset with stall := 1#2 } : State).faulted = none ∧ ({ State.reset with stall := 1#2 } : State).stall = 1#2 := by decide
theorem witness_ControlStateMachine :
    (step p6Faulted = .next (nextState (step p6Faulted)) ∧ p6Faulted.control = some .fault) ∧
    (step p11AfterFour = .next (nextState (step p11AfterFour)) ∧ p11AfterFour.control = some .stall2) ∧
    (step (nextState (step p11AfterFour)) = .next (nextState (step (nextState (step p11AfterFour)))) ∧
      (nextState (step p11AfterFour)).control = some .stall1) ∧
    (step p7AfterTwo = .next (nextState (step p7AfterTwo)) ∧ p7AfterTwo.control = some .run ∧
      p7AfterTwo.dl = some p7Latch ∧ p7Latch.redirect ≠ none) ∧
    (step p6AfterTwo = .next (nextState (step p6AfterTwo)) ∧ p6AfterTwo.control = some .run ∧
      (∀ d ∈ p6AfterTwo.dl, d.redirect = none) ∧ p6AfterTwo.fl = some { raw := 0xC123#16, fetchPC := 1#16 } ∧
      11 < ((0xC123#16).extractLsb' 12 4).toNat) ∧
    (step s1AfterThree = .next (nextState (step s1AfterThree)) ∧ s1AfterThree.control = some .run ∧
      (∀ d ∈ s1AfterThree.dl, d.redirect = none) ∧ (∀ f ∈ s1AfterThree.fl, (f.raw.extractLsb' 12 4).toNat ≤ 11)) :=
  ⟨⟨rfl, by decide⟩, ⟨rfl, by decide⟩, ⟨rfl, by decide⟩, ⟨rfl, by decide⟩, ⟨rfl, by decide⟩, ⟨rfl, by decide⟩⟩
/-- Halted at the bound with the stall counter at 2; at 1023 a core is not halted. -/
theorem witness_Halted_at_1024 : p11AfterFour.halted = true ∧ p11AfterFour.stall ≠ 3#2 ∧ p11AfterFour.pc = 1024#16 ∧
    ({ p11AfterFour with pc := 1023#16 } : State).halted = false := by decide
/-- The port is active at 1023 and not at 1024, in a redirecting cycle, or in one that takes a decode fault. -/
theorem witness_FetchAddress_at_1023_and_1024 : imemPort s1AfterThree = some 3#10 ∧
    imemPort { State.reset with pc := 1023#16 } = some 1023#10 ∧ imemPort { State.reset with pc := 1024#16 } = none ∧
    imemPort p7AfterTwo = none ∧ imemPort p6AfterTwo = none ∧ imemPort p11AfterFour = none := by decide

-- The decode fault.
theorem witness_InvalidWord : p6AfterTwo.faulted = none ∧ p6AfterTwo.stall = 0#2 ∧
    p6AfterTwo.fl = some { raw := 0xC123#16, fetchPC := 1#16 } ∧ (∀ d ∈ p6AfterTwo.dl, d.redirect = none) ∧
    11 < ((0xC123#16).extractLsb' 12 4).toNat ∧
    executeStage p6AfterTwo = .next (nextState (executeStage p6AfterTwo)) :=
  ⟨by decide, by decide, by decide, by decide, by decide, rfl⟩
theorem witness_OnlyInvalidWords : step p6AfterTwo = .next p6Faulted ∧ p6AfterTwo.faulted = none ∧ p6Faulted.faulted ≠ none :=
  ⟨rfl, by decide, by decide⟩
theorem witness_FaultedCore : p6Faulted.faulted ≠ none := by decide

-- Memories.
theorem witness_DataMemory_at_2047_and_2048 : Memory.wf Config.dmemBytes ([(2047, 5#8)] : List Host.Cell) = true ∧
    (2047#16).toNat < Config.dmemBytes ∧ Config.dmemBytes ≤ (2048#16).toNat ∧ (0#16 ≠ 2047#16) := by decide
theorem witness_MemoriesCanonical : step s1AfterThree = .next (nextState (step s1AfterThree)) ∧
    Memory.wf Config.imemWords s1AfterThree.im = true ∧ Memory.wf Config.dmemBytes s1AfterThree.dm = true :=
  ⟨rfl, by decide, by decide⟩
theorem witness_InstructionMemory :
    clockEdge true p6Faulted = .next (nextState (clockEdge true p6Faulted)) ∧
    clockEdge false s1AfterThree = .next (nextState (clockEdge false s1AfterThree)) := ⟨rfl, rfl⟩
theorem witness_DataBytesStayZero : boot [0xB05F#16] = some { State.reset with im := [(0, 0xB05F#16)] } ∧
    afterCycles 1 { State.reset with im := [(0, 0xB05F#16)] } =
      some { State.reset with im := [(0, 0xB05F#16)], pc := 1#16, fl := some { raw := 0xB05F#16, fetchPC := 0#16 } } ∧
    32 ≤ 32 := by decide

-- Reset and boot.
theorem witness_Boot_at_1024_and_1025 : (List.replicate 1024 1#16).length ≤ 1024 ∧ 1024 < (List.replicate 1025 1#16).length := by
  rw [List.length_replicate, List.length_replicate]
  decide

-- What leaves the core.
theorem witness_Observation : s1AfterThree.fl = some { raw := 0x0042#16, fetchPC := 2#16 } ∧ s1AfterThree.dl = some s1Latch ∧
    State.reset.fl = none ∧ State.reset.dl = none ∧ p6Faulted.faulted = some { pc := 1#16, word := 0xC123#16 } := by decide

-- States with the invariants: S1 after cycle 3, P6 after cycle 2, P7 after cycle 2.
theorem witness_Inv_s1 : Inv s1AfterThree :=
  ⟨by decide, by decide, by decide, by decide, by decide, by decide, by decide, by decide, by decide, by decide⟩
theorem witness_Inv_p6 : Inv p6AfterTwo :=
  ⟨by decide, by decide, by decide, by decide, by decide, by decide, by decide, by decide, by decide, by decide⟩
theorem witness_Inv_p7 : Inv p7AfterTwo :=
  ⟨by decide, by decide, by decide, by decide, by decide, by decide, by decide, by decide, by decide, by decide⟩
theorem witness_EffectRecord :
    Inv p7AfterTwo ∧ step p7AfterTwo = .next (nextState (step p7AfterTwo)) ∧ (cycleEffects p7AfterTwo).redirect = some 2#16 ∧
    Inv s1AfterThree ∧ step s1AfterThree = .next (nextState (step s1AfterThree)) ∧
    (cycleEffects s1AfterThree).redirect = none ∧ (cycleEffects s1AfterThree).flagsWe = 0#5 :=
  ⟨witness_Inv_p7, rfl, by decide, witness_Inv_s1, rfl, by decide, by decide⟩
/-- A state that executes nothing, STR at the two sides of the bound, and a flag mask between the extremes. -/
theorem witness_EffectRecord_at_2047_and_2048 :
    Inv State.reset ∧ (∀ d, ¬ Executes State.reset d) ∧ step State.reset = .next (nextState (step State.reset)) ∧
    (cycleEffects (holding .str 1 2047 0 5 2047)).mem = some (2047#11, 5#8) ∧
    (cycleEffects (holding .str 1 2048 0 5 2048)).mem = none ∧
    (cycleEffects (holding .mul 1 2 0 3 5)).flagsWe = 0b00101#5 :=
  ⟨⟨by decide, by decide, by decide, by decide, by decide, by decide, by decide, by decide, by decide, by decide⟩,
    (by rintro d ⟨_, _, h⟩; cases h), rfl, by decide, by decide, by decide⟩
theorem witness_InvariantAfterBootAndReset : boot [0x3045#16] = some { State.reset with im := [(0, 0x3045#16)] } ∧
    Inv p6AfterTwo ∧ clockEdge true p6AfterTwo = .next (nextState (clockEdge true p6AfterTwo)) :=
  ⟨by decide, witness_Inv_p6, rfl⟩
theorem witness_StepKeepsInvariant : Inv s1AfterThree ∧ step s1AfterThree = .next (nextState (step s1AfterThree)) :=
  ⟨witness_Inv_s1, rfl⟩
theorem witness_NoLatchOverwritten : Inv s1AfterThree ∧ s1AfterThree.faulted = none ∧ s1AfterThree.stall = 0#2 ∧
    executeStage s1AfterThree = .next (nextState (executeStage s1AfterThree)) ∧
    (decodeStage (nextState (executeStage s1AfterThree))).faulted = none ∧
    (decodeStage (nextState (executeStage s1AfterThree))).stall = 0#2 :=
  ⟨witness_Inv_s1, by decide, by decide, rfl, by decide, by decide⟩
theorem witness_FaultIsPrecise : Inv p6AfterTwo ∧ step p6AfterTwo = .next p6Faulted ∧ p6AfterTwo.faulted = none ∧
    p6Faulted.faulted = some { pc := 1#16, word := 0xC123#16 } :=
  ⟨witness_Inv_p6, rfl, by decide, by decide⟩
theorem witness_Refinement : Inv s1AfterThree ∧ step s1AfterThree = .next (nextState (step s1AfterThree)) ∧
    (executingLatch s1AfterThree).isSome = true := ⟨witness_Inv_s1, rfl, by decide⟩
theorem witness_RunRefinement : Inv p7AfterTwo := witness_Inv_p7

end Sys2Proof.Tests
end

section
/-! PROOF. The sizes of the machine, read back from it. A width is read back by exhibiting every bit pattern
as a value that some state holds: the values of an onto map to `w` bits are then exactly those below `2 ^ w`. -/

namespace Sys2Proof.Machine

/-- The numbers that an onto map to `w` bits takes are those below `2 ^ w`. -/
theorem exists_toNat_eq_iff_of_surjective {α : Type} {w : Nat} {f : α → BitVec w}
    (hf : Function.Surjective f) (n : Nat) : (∃ a, (f a).toNat = n) ↔ n < 2 ^ w := by
  constructor
  · rintro ⟨a, rfl⟩
    exact (f a).isLt
  · intro hn
    obtain ⟨a, ha⟩ := hf (BitVec.ofNat w n)
    exact ⟨a, by rw [ha, BitVec.toNat_ofNat, Nat.mod_eq_of_lt hn]⟩

theorem exists_pair_toNat_eq_iff_of_surjective {α β : Type} {w : Nat} {f : α → β → BitVec w}
    (hf : Function.Surjective fun p : α × β => f p.1 p.2) (n : Nat) :
    (∃ a b, (f a b).toNat = n) ↔ n < 2 ^ w :=
  Prod.exists.symm.trans (exists_toNat_eq_iff_of_surjective hf n)

/-- Some register of some state holds any given byte. -/
theorem State.reg_surjective : Function.Surjective fun p : State × RegIdx => p.1.reg p.2 :=
  fun v => ⟨(State.reset.setReg 0#6 v, 0#6), State.reg_setReg_same _ _ v⟩

/-- Some address of some state's instruction memory holds any given word. -/
theorem imemRead_surjective : Function.Surjective fun p : State × WorkInt => imemRead p.1.im p.2 :=
  fun v => ⟨({ State.reset with im := [(0, v)] }, 0#16), by simp [imemRead, Memory.read]⟩

/-- The flags whose packing is `b`: `{C, V, N, S, Z}` from bits 4 to 0 (10_state.md R27). -/
def StatusRegister.unpack (b : BitVec 5) : StatusRegister where
  z := b.getLsbD 0
  n := b.getLsbD 2
  c := b.getLsbD 4
  v := b.getLsbD 3
  s := b.getLsbD 1

theorem StatusRegister.pack_unpack (b : BitVec 5) : (StatusRegister.unpack b).pack = b := by
  revert b; decide

theorem State.pack_sr_surjective : Function.Surjective fun s : State => s.sr.pack :=
  fun b => ⟨{ State.reset with sr := .unpack b }, StatusRegister.pack_unpack b⟩

theorem State.pc_surjective : Function.Surjective State.pc :=
  fun a => ⟨{ State.reset with pc := a }, rfl⟩

/-- `MemRead` of the address just written: the byte below `DMEM_BYTES`, and 0 elsewhere (20_memory.md R54,
R55). -/
theorem dmemRead_dmemWrite_same {dm : List Host.Cell} (h : Memory.wf Config.dmemBytes dm = true)
    (a : WorkInt) (v : Byte) :
    dmemRead (dmemWrite dm a v) a = if a.toNat < Config.dmemBytes then v else 0x00#8 := by
  unfold dmemRead dmemWrite
  split
  · exact Memory.read_write_same h a.toNat v
  · rfl

/-- A byte other than 0 is read back exactly below `DMEM_BYTES`. -/
theorem dmemRead_dmemWrite_same_eq_iff {dm : List Host.Cell} (h : Memory.wf Config.dmemBytes dm = true)
    (a : WorkInt) {v : Byte} (hv : v ≠ 0x00#8) :
    dmemRead (dmemWrite dm a v) a = v ↔ a.toNat < Config.dmemBytes := by
  rw [dmemRead_dmemWrite_same h, ite_eq_left_iff]
  exact ⟨fun hz => by_contra fun ha => hv (hz ha).symm, fun ha hna => absurd ha hna⟩

/-- The patterns that select an instruction are those below `NOPCODES` (30_encoding.md R76, R80). -/
theorem exists_ofBits_eq_some_iff (b : BitVec 4) :
    (∃ op, Opcode.ofBits b = some op) ↔ b.toNat < Config.nopcodes := by
  rw [← Option.ne_none_iff_exists', Ne, Opcode.ofBits_eq_none_iff, Nat.not_lt]
  exact Nat.lt_succ_iff.symm

/-- Settles O57: each width from its onto map, each bound from the law of the operation that has it. -/
theorem sizesFollowParameters : Obligations.SizesFollowParameters := by
  refine ⟨rfl, fun s => s.x.length_toList, ?registers, ?words, ?flags, ?pc, ?fetch, ?data, ?stall, ?opcodes⟩
  case registers => exact exists_pair_toNat_eq_iff_of_surjective State.reg_surjective
  case words => exact exists_pair_toNat_eq_iff_of_surjective imemRead_surjective
  case flags => exact exists_toNat_eq_iff_of_surjective State.pack_sr_surjective
  case pc => exact exists_toNat_eq_iff_of_surjective State.pc_surjective
  case fetch => exact fun s hs => (fetchEnabled_iff s).trans (and_iff_right hs)
  case data => exact fun a v hv => dmemRead_dmemWrite_same_eq_iff rfl a hv
  case stall => exact fun s p => congrArg BitVec.toNat (State.transferTo_stall s p)
  case opcodes => exact exists_ofBits_eq_some_iff

end Sys2Proof.Machine
end

section
/-! PROOF. What the outside sees of a state and of a cycle: the register file's laws at reset (10_state.md R24),
the observation snapshot (R27, R37), the data-memory ports (R35) and the effect record (R38). A cycle changes
registers, flags and data memory only by the effect of the instruction in Execute (`step_data_cases`), so each
clause about the record is a fact about one instruction's effect. -/

namespace Sys2Proof.Machine

/-! ## The snapshot and the reset state -/

theorem State.reg_reset (i : RegIdx) : State.reset.reg i = 0x00#8 := by
  simp [State.reg, State.reset]

theorem State.isFaulted_iff (s : State) : s.isFaulted = true ↔ s.faulted ≠ none :=
  Option.isSome_iff_ne_none

/-- The halted predicate of 40_pipeline.md R116, which does not read the stall counter. -/
theorem State.halted_iff (s : State) :
    s.halted = true ↔ s.faulted = none ∧ 1024 ≤ s.pc.toNat ∧ s.fl = none ∧ s.dl = none := by
  simp only [State.halted, Bool.and_eq_true, Option.isNone_iff_eq_none, decide_eq_true_eq, and_assoc]

/-- The five positions of 10_state.md R27. -/
theorem StatusRegister.getLsbD_pack (r : StatusRegister) :
    r.pack.getLsbD 4 = r.c ∧ r.pack.getLsbD 3 = r.v ∧ r.pack.getLsbD 2 = r.n ∧
    r.pack.getLsbD 1 = r.s ∧ r.pack.getLsbD 0 = r.z := by
  obtain ⟨z, n, c, v, s⟩ := r
  revert z n c v s
  decide

/-- Settles O26: the register file's write law; and a reset that fills it with zeros. -/
theorem registerZeroIsOrdinary : Obligations.RegisterZeroIsOrdinary :=
  ⟨State.reg_reset, State.reg_setReg⟩

/-- Settles O45. -/
theorem observedFlagsArePackedCVNSZ : Obligations.ObservedFlagsArePackedCVNSZ :=
  fun s => s.sr.getLsbD_pack

/-- Settles O46: the fields copied from the state hold by definition of the snapshot; the latches by whether
they are Occupied; the two status bits by their predicates. -/
theorem observationPresentsState : Obligations.ObservationPresentsState := by
  intro s
  refine ⟨rfl, rfl, rfl, rfl, rfl, rfl, rfl, rfl, rfl,
    ?flEmpty, ?flOccupied, ?dlEmpty, ?dlOccupied, s.halted_iff, s.isFaulted_iff, ?record⟩
  case flEmpty => exact fun h => congrArg viewFetchLatch h
  case flOccupied => exact fun f h => congrArg viewFetchLatch h
  case dlEmpty => exact fun h => congrArg viewDecodeLatch h
  case dlOccupied => exact fun d h => congrArg viewDecodeLatch h
  case record => exact fun r h => ⟨congrArg (Option.map FaultRecord.pc) h, congrArg (Option.map FaultRecord.word) h⟩

/-! ## The instruction in Execute -/

theorem executingLatch_eq_some_iff (s : State) (d : DecodeLatch) :
    executingLatch s = some d ↔ Executes s d := by
  simp only [executingLatch, State.isFaulted_iff, Executes]
  by_cases hf : s.faulted = none <;> by_cases h0 : s.stall = 0#2 <;> simp [hf, h0]

theorem executingLatch_eq_none {s : State} (h : ∀ d, ¬ Executes s d) : executingLatch s = none :=
  Option.eq_none_iff_forall_ne_some.2 fun d hd => h d ((executingLatch_eq_some_iff s d).1 hd)

theorem dmemReadPort_eq_bind (s : State) :
    dmemReadPort s = (executingLatch s).bind fun d => if d.opcode = .ldr then some d.secondValue else none := by
  unfold dmemReadPort
  cases executingLatch s <;> rfl

theorem dmemWritePort_eq_bind (s : State) :
    dmemWritePort s =
      (executingLatch s).bind fun d => if d.opcode = .str then some (d.secondValue, d.sourceValue) else none := by
  unfold dmemWritePort
  cases executingLatch s <;> rfl

/-- Settles O47: each port is the executing latch, if there is one and it holds the port's opcode. -/
theorem dataPortsFollowExecutingAccess : Obligations.DataPortsFollowExecutingAccess := by
  intro s a v
  constructor
  · simp only [dmemReadPort_eq_bind, Option.bind_eq_some_iff, executingLatch_eq_some_iff,
      Option.ite_none_right_eq_some, Option.some.injEq]
  · simp only [dmemWritePort_eq_bind, Option.bind_eq_some_iff, executingLatch_eq_some_iff,
      Option.ite_none_right_eq_some, Option.some.injEq, Prod.mk.injEq]

/-! ## What one instruction writes -/

/-- The opcodes of 10_state.md R23. -/
abbrev registerWriters : List Opcode := [.add, .sub, .mul, .movi, .andi, .eor, .sal, .sar, .ldr]

theorem registerWrite_isSome_iff (dm : List Host.Cell) (d : DecodeLatch) :
    (registerWrite dm d).isSome = true ↔ d.opcode ∈ registerWriters := by
  unfold registerWrite
  cases d.opcode <;> simp

theorem memoryWrite_eq_some_iff (d : DecodeLatch) (k : BitVec 11) (v : Byte) :
    memoryWrite d = some (k, v) ↔
      d.opcode = .str ∧ d.secondValue.toNat < 2048 ∧ k.toNat = d.secondValue.toNat ∧ v = d.sourceValue := by
  have address (hlt : d.secondValue.toNat < 2048) :
      d.secondValue.setWidth 11 = k ↔ k.toNat = d.secondValue.toNat := by
    rw [← BitVec.toNat_inj, BitVec.toNat_setWidth, Nat.mod_eq_of_lt hlt, eq_comm]
  rw [memoryWrite, Option.ite_none_right_eq_some, Option.ite_none_right_eq_some, Option.some.injEq,
    Prod.mk.injEq, eq_comm (b := v)]
  exact and_congr_right fun _ => and_congr_right fun hlt => and_congr_left fun _ => address hlt

/-- The wrapping sum is the truncated exact one (43_control_transfer.md R171). -/
theorem beqzTarget_eq_add (p b : WorkInt) : beqzTarget p b = p + 1#16 + b := by
  rw [beqzTarget_eq, BitVec.ofInt_add, BitVec.ofInt_add, BitVec.ofInt_toInt, BitVec.ofInt_natCast,
    BitVec.ofNat_toNat]
  simp

theorem redirect_eq_some_iff (d : DecodeLatch) (p : WorkInt) :
    d.redirect = some p ↔
      (d.opcode = .beqz ∧ d.sourceValue = 0x00#8 ∧ p = d.instrPC + 1#16 + d.secondValue) ∨
      (d.opcode = .br ∧ p = d.sourceValue ++ d.secondValue.extractLsb' 0 8) := by
  unfold DecodeLatch.redirect
  cases d.opcode
  case beqz => simp [beqzTarget_eq_add, DecodeLatch.a, DecodeLatch.b, eq_comm (b := p)]
  case br => simp [brTarget_eq, lowByte_eq, DecodeLatch.a, DecodeLatch.b, eq_comm (b := p)]
  all_goals simp

/-- The table of 10_state.md R26. -/
theorem flagsWritten_table (op : Opcode) :
    (op ∈ [Opcode.add, .sub] → flagsWritten op = 0b11111#5) ∧
    (op ∈ [Opcode.mul, .andi, .eor, .sal, .sar] → flagsWritten op = 0b00101#5) ∧
    (op ∈ [Opcode.movi, .ldr, .str, .beqz, .br] → flagsWritten op = 0b00000#5) := by
  cases op <;> decide

/-- Each flag whose bit in the mask is 0, in the order C, V, N, S, Z, is the same. -/
def FlagsKeptOutside (mask : BitVec 5) (old new : StatusRegister) : Prop :=
  (mask.getLsbD 4 = false → new.c = old.c) ∧ (mask.getLsbD 3 = false → new.v = old.v) ∧
  (mask.getLsbD 2 = false → new.n = old.n) ∧ (mask.getLsbD 1 = false → new.s = old.s) ∧
  (mask.getLsbD 0 = false → new.z = old.z)

theorem FlagsKeptOutside.refl (mask : BitVec 5) (r : StatusRegister) : FlagsKeptOutside mask r r :=
  ⟨fun _ => rfl, fun _ => rfl, fun _ => rfl, fun _ => rfl, fun _ => rfl⟩

theorem FlagsKeptOutside.of_allOnes (old new : StatusRegister) : FlagsKeptOutside 0b11111#5 old new := by
  simp [FlagsKeptOutside]

theorem FlagsKeptOutside.logicFlags (old : StatusRegister) (r : Byte) :
    FlagsKeptOutside 0b00101#5 old (logicFlags old r) := by
  simp [FlagsKeptOutside, Machine.logicFlags]

/-- What an instruction does to the flags: those outside its opcode's mask stay. -/
theorem effectOf_flags (s : State) (d : DecodeLatch) :
    FlagsKeptOutside (flagsWritten d.opcode) s.sr (effectOf d.instr s d).sr := by
  unfold DecodeLatch.instr instrOf
  cases d.opcode
  case add | sub => exact .of_allOnes _ _
  case mul | andi | eor | sal | sar => exact .logicFlags _ _
  case movi | br | ldr | str => exact .refl _ _
  case beqz =>
    simp only [effectOf]
    split <;> exact .refl _ _

/-- What an instruction does to the bytes of a canonical data memory: the write that `memoryWrite` names. -/
theorem effectOf_read_dm {s : State} (h : Memory.wf Config.dmemBytes s.dm = true) (d : DecodeLatch) (a : Nat) :
    Memory.read (effectOf d.instr s d).dm a =
      (memoryWrite d).elim (Memory.read s.dm a) fun w => if a = w.1.toNat then w.2 else Memory.read s.dm a := by
  rw [effectOf_dm]
  by_cases hop : d.opcode = .str
  · by_cases hlt : d.b.toNat < Config.dmemBytes
    · have hw : (d.b.setWidth 11).toNat = d.b.toNat := by
        rw [BitVec.toNat_setWidth, Nat.mod_eq_of_lt hlt]
      simp only [memoryWrite, effectiveAddress, dmemWrite, hop, hlt, if_true, Option.elim, hw]
      by_cases ha : a = d.b.toNat
      · rw [if_pos ha, ha, Memory.read_write_same h]
      · rw [if_neg ha, Memory.read_write_other _ _ _ _ ha]
    · simp only [memoryWrite, effectiveAddress, dmemWrite, hop, hlt, if_true, if_false, Option.elim]
  · simp only [memoryWrite, hop, if_false, Option.elim]

/-! ## What a cycle writes -/

/-- The registers, the flags and the data memory are the same: all that an instruction can change but the
pipeline's own state. -/
def SameData (s t : State) : Prop := t.x = s.x ∧ t.sr = s.sr ∧ t.dm = s.dm

theorem SameData.refl (s : State) : SameData s s := ⟨rfl, rfl, rfl⟩

theorem finishCycle_sameData (s : State) : SameData s (finishCycle s) := by
  obtain ⟨hx, hsr, hdm, _, _⟩ := finishCycle_keeps s
  exact ⟨hx, hsr, hdm⟩

@[simp] theorem finishCycle_stall (s : State) : (finishCycle s).stall = s.stall := by
  obtain ⟨_, _, _, _, hs⟩ := finishCycle_keeps s
  exact hs

theorem executes_unique {s : State} {d e : DecodeLatch} : Executes s d → Executes s e → d = e :=
  fun ⟨_, _, hd⟩ ⟨_, _, he⟩ => Option.some.inj (hd.symm.trans he)

/-- Registers, flags and data memory after a cycle: as the instruction in Execute leaves them, or as before
when there is none. -/
theorem step_data_cases {s t : State} (h : step s = .next t) :
    (∃ d, Executes s d ∧ SameData (effectOf d.instr s d) t) ∨ ((∀ d, ¬ Executes s d) ∧ SameData s t) := by
  rcases step_cases s with ⟨hf, e⟩ | ⟨_, _, e⟩ | ⟨_, _, hd, e⟩ | ⟨d, hx, _, e⟩ | ⟨d, p, hx, hr, e⟩ |
    ⟨_, h1, e⟩ | ⟨_, h2, e⟩ <;> cases e.symm.trans h
  · exact .inr ⟨fun d ⟨hf', _⟩ => hf hf', .refl s⟩
  · exact .inr ⟨fun d ⟨_, _, hd'⟩ => by simp [hd] at hd', finishCycle_sameData s⟩
  · exact .inl ⟨d, hx, finishCycle_sameData { effectOf d.instr s d with dl := none }⟩
  · refine .inl ⟨d, hx, ?_⟩
    rw [(effectOf_pipeline s d).2 p hr]
    exact .refl _
  · exact .inr ⟨fun d ⟨_, h0, _⟩ => by simp [h1] at h0, rfl, rfl, rfl⟩
  · exact .inr ⟨fun d ⟨_, h0, _⟩ => by simp [h2] at h0, rfl, rfl, rfl⟩

/-- A control transfer takes the whole cycle: Decode and Fetch do nothing after it (40_pipeline.md R110). -/
theorem step_of_redirect {s : State} {d : DecodeLatch} {p : WorkInt} (hx : Executes s d)
    (hr : d.redirect = some p) : step s = .next (s.transferTo p) := by
  obtain ⟨hf, h0, hd⟩ := hx
  rcases step_cases s with ⟨hf', _⟩ | ⟨_, h3, _⟩ | ⟨_, _, hd', _⟩ | ⟨e, hx, hr', _⟩ | ⟨e, q, hx, hr', h⟩ |
    ⟨_, h1, _⟩ | ⟨_, h2, _⟩
  · exact absurd hf hf'
  · simp [h3] at h0
  · simp [hd'] at hd
  · rw [executes_unique hx ⟨hf, h0, hd⟩, hr] at hr'
    cases hr'
  · rw [executes_unique hx ⟨hf, h0, hd⟩, hr] at hr'
    cases hr'
    exact h
  · simp [h1] at h0
  · simp [h2] at h0

/-- Only a control transfer sets the stall counter to 2. -/
theorem step_stall_ne_two {s t : State} (hi : Inv s) (h : step s = .next t)
    (hr : ∀ d, Executes s d → d.redirect = none) : t.stall ≠ 2#2 := by
  rcases step_cases s with ⟨hf, e⟩ | ⟨_, _, e⟩ | ⟨_, h0, _, e⟩ | ⟨d, ⟨_, h0, _⟩, hn, e⟩ | ⟨d, p, hx, hp, e⟩ |
    ⟨_, _, e⟩ | ⟨_, _, e⟩ <;> cases e.symm.trans h
  · obtain ⟨r, hr⟩ := Option.ne_none_iff_exists'.1 hf
    obtain ⟨_, _, h0, _⟩ := hi.fault_kept r hr
    simp [h0]
  · simp [h0]
  · obtain ⟨_, _, _, hkept, _⟩ := (effectOf_pipeline s d).1 hn
    simp [hkept, h0]
  · simp [hr d hx] at hp
  · simp
  · simp

/-! ## The effect record -/

theorem cycleEffects_of_executes {s : State} {d : DecodeLatch} (hx : Executes s d) :
    cycleEffects s =
      { reg := (registerWrite s.dm d).map fun v => (d.rs, v), mem := memoryWrite d, redirect := d.redirect,
        flagsWe := flagsWritten d.opcode } := by
  simp only [cycleEffects, (executingLatch_eq_some_iff s d).2 hx]

theorem cycleEffects_of_idle {s : State} (hn : ∀ d, ¬ Executes s d) : cycleEffects s = .nothing := by
  simp only [cycleEffects, executingLatch_eq_none hn]

theorem cycleEffects_redirect_eq_some_iff (s : State) (p : WorkInt) :
    (cycleEffects s).redirect = some p ↔ ∃ d, Executes s d ∧ d.redirect = some p := by
  by_cases hx : ∃ d, Executes s d
  · obtain ⟨d, hd⟩ := hx
    rw [cycleEffects_of_executes hd]
    exact ⟨fun h => ⟨d, hd, h⟩, fun ⟨e, he, h⟩ => executes_unique he hd ▸ h⟩
  · have hn := not_exists.1 hx
    rw [cycleEffects_of_idle hn]
    exact ⟨fun h => (Option.some_ne_none p h.symm).elim, fun ⟨d, hd, _⟩ => (hn d hd).elim⟩

/-- The registers after a cycle are the old ones with the reported write. -/
theorem step_reg {s t : State} (h : step s = .next t) (j : RegIdx) :
    t.reg j = (cycleEffects s).reg.elim (s.reg j) fun w => if j = w.1 then w.2 else s.reg j := by
  rcases step_data_cases h with ⟨d, hd, hx, _, _⟩ | ⟨hn, hx, _, _⟩ <;> rw [State.reg_congr hx]
  · rw [effectOf_reg, cycleEffects_of_executes hd]
    cases registerWrite s.dm d <;> rfl
  · rw [cycleEffects_of_idle hn]
    rfl

/-- The data memory after a cycle is the old one with the reported write. -/
theorem step_read_dm {s t : State} (hi : Inv s) (h : step s = .next t) (a : Nat) :
    Memory.read t.dm a =
      (cycleEffects s).mem.elim (Memory.read s.dm a) fun w =>
        if a = w.1.toNat then w.2 else Memory.read s.dm a := by
  rcases step_data_cases h with ⟨d, hd, _, _, hdm⟩ | ⟨hn, _, _, hdm⟩ <;> rw [hdm]
  · rw [effectOf_read_dm hi.dm_wf, cycleEffects_of_executes hd]
  · rw [cycleEffects_of_idle hn]
    rfl

theorem step_flags {s t : State} (h : step s = .next t) :
    FlagsKeptOutside (cycleEffects s).flagsWe s.sr t.sr := by
  rcases step_data_cases h with ⟨d, hd, _, hsr, _⟩ | ⟨_, _, hsr, _⟩ <;> rw [hsr]
  · rw [cycleEffects_of_executes hd]
    exact effectOf_flags s d
  · exact .refl _ _

/-- A register write is reported for the opcodes of R23, with the value that the register then holds. -/
theorem cycleEffects_reg_eq_some_iff {s t : State} {d : DecodeLatch} (h : step s = .next t) (hx : Executes s d)
    (j : RegIdx) (v : Byte) :
    (cycleEffects s).reg = some (j, v) ↔ d.opcode ∈ registerWriters ∧ j = d.rs ∧ v = t.reg d.rs := by
  rw [← registerWrite_isSome_iff s.dm d, step_reg h, cycleEffects_of_executes hx]
  cases registerWrite s.dm d <;> simp [eq_comm]

/-- Settles O25: a register that changed is the one in the effect record. -/
theorem onlyExecuteWritesOneRegister : Obligations.OnlyExecuteWritesOneRegister := by
  intro s t h j hne
  have hreg := step_reg h j
  rcases step_data_cases h with ⟨d, hd, _⟩ | ⟨hn, _⟩
  · cases hw : (cycleEffects s).reg with
    | none => exact absurd (by simpa [hw] using hreg) hne
    | some w =>
      obtain ⟨hop, hrs, _⟩ := (cycleEffects_reg_eq_some_iff h hd w.1 w.2).1 hw
      by_cases hj : j = w.1
      · exact ⟨d, hd, (hj.trans hrs).symm, hop⟩
      · exact absurd (by simpa [hw, hj] using hreg) hne
  · exact absurd (by simpa [cycleEffects_of_idle hn, EffectRecord.nothing] using hreg) hne

/-- Settles O48: the frame clauses are the laws of a cycle above; the content of the record is, clause by
clause, that of the instruction in Execute. -/
theorem effectRecordReportsTheCycle : Obligations.EffectRecordReportsTheCycle := by
  intro s t hi h
  obtain ⟨hc, hv, hn, hs, hz⟩ := step_flags h
  refine ⟨?registers, ?memory, ?redirected, ?notRedirected, hc, hv, hn, hs, hz, cycleEffects_of_idle,
    fun d hx => ⟨cycleEffects_reg_eq_some_iff h hx, ?memoryWrite, ?redirect, ?flags⟩⟩
  case registers =>
    intro j
    rw [step_reg h j]
    cases (cycleEffects s).reg <;> rfl
  case memory =>
    intro a
    rw [step_read_dm hi h a]
    cases (cycleEffects s).mem <;> rfl
  case redirected =>
    intro p hp
    obtain ⟨d, hx, hr⟩ := (cycleEffects_redirect_eq_some_iff s p).1 hp
    cases (step_of_redirect hx hr).symm.trans h
    exact ⟨rfl, rfl, rfl, rfl⟩
  case notRedirected =>
    intro hr
    refine step_stall_ne_two hi h fun d hx => ?_
    rwa [cycleEffects_of_executes hx] at hr
  all_goals rw [cycleEffects_of_executes hx]
  case memoryWrite => exact memoryWrite_eq_some_iff d
  case redirect => exact redirect_eq_some_iff d
  case flags => exact flagsWritten_table d.opcode

end Sys2Proof.Machine
end

section
/-! PROOF. The two memories (20_memory.md). No clock edge writes the instruction memory (R51, R65), and a cycle
changes the data memory only by the store in Execute (`step_data_cases`). What keeps the bytes from 32 on at
`0x00` (R56) is the address of that store: it is a sign-extended 6-bit immediate, so it is below 32 or out of
range. A store reads it from `DL`, which is why the invariant of a run says where the latch came from. -/

namespace Sys2Proof.Machine

/-! ## The data-memory port -/

theorem dmemRead_of_ge {a : WorkInt} (h : Config.dmemBytes ≤ a.toNat) (dm : List Host.Cell) :
    dmemRead dm a = 0x00#8 :=
  if_neg (Nat.not_lt.2 h)

theorem dmemWrite_of_ge {a : WorkInt} (h : Config.dmemBytes ≤ a.toNat) (dm : List Host.Cell) (v : Byte) :
    dmemWrite dm a v = dm :=
  if_neg (Nat.not_lt.2 h)

/-- `MemWrite` to `a` leaves every byte but `DM[u(a)]` alone, in any list. -/
theorem read_dmemWrite_of_ne {a : WorkInt} {k : Nat} (h : k ≠ a.toNat) (dm : List Host.Cell) (v : Byte) :
    Memory.read (dmemWrite dm a v) k = Memory.read dm k := by
  unfold dmemWrite
  split
  · exact Memory.read_write_other dm a.toNat k v h
  · rfl

theorem dmemRead_dmemWrite_of_ne {a b : WorkInt} (h : b ≠ a) (dm : List Host.Cell) (v : Byte) :
    dmemRead (dmemWrite dm a v) b = dmemRead dm b := by
  unfold dmemRead
  rw [read_dmemWrite_of_ne (mt BitVec.eq_of_toNat_eq h)]

/-- Settles O39: one law of the port per clause. -/
theorem dataMemoryReadsWhatWasWritten : Obligations.DataMemoryReadsWhatWasWritten := by
  intro dm a b v hwf
  refine ⟨fun ha => ⟨dmemRead_of_ge ha dm, dmemWrite_of_ge ha dm v⟩, fun ha => ?readBack,
    fun hne => dmemRead_dmemWrite_of_ne hne dm v⟩
  case readBack => rw [dmemRead_dmemWrite_same hwf, if_pos ha]

/-! ## What a clock edge keeps -/

@[simp] theorem finishCycle_im (s : State) : (finishCycle s).im = s.im := by
  obtain ⟨_, _, _, him, _⟩ := finishCycle_keeps s
  exact him

@[simp] theorem effectOf_im (i : Instr) (s : State) (d : DecodeLatch) : (effectOf i s d).im = s.im := by
  obtain ⟨him, _, _⟩ := effectOf_keeps i s d
  exact him

theorem effectOf_dm_wf {s : State} (h : Memory.wf Config.dmemBytes s.dm = true) (i : Instr) (d : DecodeLatch) :
    Memory.wf Config.dmemBytes (effectOf i s d).dm = true := by
  obtain ⟨_, _, hdm⟩ := effectOf_keeps i s d
  exact hdm h

/-- No cycle writes the instruction memory (R51, R65). -/
theorem step_im {s t : State} (h : step s = .next t) : t.im = s.im := by
  rcases step_cases s with ⟨_, e⟩ | ⟨_, _, e⟩ | ⟨_, _, _, e⟩ | ⟨d, _, _, e⟩ | ⟨d, p, _, _, e⟩ |
    ⟨_, _, e⟩ | ⟨_, _, e⟩ <;> cases e.symm.trans h <;> simp

theorem step_dm_wf {s t : State} (h : step s = .next t) (hdm : Memory.wf Config.dmemBytes s.dm = true) :
    Memory.wf Config.dmemBytes t.dm = true := by
  rcases step_data_cases h with ⟨d, _, _, _, e⟩ | ⟨_, _, _, e⟩ <;> rw [e]
  · exact effectOf_dm_wf hdm d.instr d
  · exact hdm

/-- Settles O40. -/
theorem everyStepKeepsMemoriesCanonical : Obligations.EveryStepKeepsMemoriesCanonical := by
  intro s t h him hdm
  exact ⟨by rwa [step_im h], step_dm_wf h hdm⟩

/-- Settles O41: reset keeps the instruction memory by definition, and a cycle by `step_im`. -/
theorem instructionMemoryIsReadOnly : Obligations.InstructionMemoryIsReadOnly := by
  intro rst s t h
  cases rst with
  | true =>
    cases h
    exact State.resetCore_im s
  | false => exact step_im h

/-! ## Where a latch comes from -/

/-- Decode filled the latch, from an accepted word and the registers of some state (40_pipeline.md R105). -/
def DecodeLatch.FromDecode (d : DecodeLatch) : Prop :=
  ∃ (s : State) (raw : Word) (pc : WorkInt) (c : Decoded), decodeFields raw = .ok c ∧ d = latchOf s raw pc c

/-- The address of a store that came through Decode is an immediate: STR is I-format (42_load_store.md R160). -/
theorem DecodeLatch.FromDecode.store_address {d : DecodeLatch} (h : d.FromDecode) (hop : d.opcode = .str) :
    ∃ imm6 : BitVec 6, d.b = signExtend6 imm6 := by
  obtain ⟨s, raw, pc, c, hc, rfl⟩ := h
  obtain ⟨_, hfmt, _, hsecond⟩ := decodeFields_ok hc
  have himm : c.fmt = .immediate := hfmt.trans (congrArg Opcode.format hop)
  refine ⟨lowField raw, ?_⟩
  calc (latchOf s raw pc c).b
      = secondValueAt s c.fmt c.second := rfl
    _ = c.second := by rw [himm]; rfl
    _ = secondOf c.fmt (lowField raw) := hsecond
    _ = signExtend6 (lowField raw) := by rw [himm]; rfl

@[simp] theorem fetchStage_dl (s : State) : (fetchStage s).dl = s.dl := by
  rcases fetchStage_cases s with ⟨_, e⟩ | ⟨_, _, e⟩ | ⟨_, _, e⟩ <;> rw [e]

theorem decodeStage_dl {s : State} {d : DecodeLatch} (h : (decodeStage s).dl = some d) :
    s.dl = some d ∨ d.FromDecode := by
  rcases decodeStage_cases s with ⟨_, e⟩ | ⟨_, _, e⟩ | ⟨_, _, _, _, _, e⟩ | ⟨f, c, _, _, hc, e⟩ <;> rw [e] at h
  · exact .inl h
  · exact .inl h
  · exact .inl h
  · exact .inr ⟨s, f.raw, f.fetchPC, c, hc, (Option.some.inj h).symm⟩

theorem finishCycle_dl {s : State} {d : DecodeLatch} (h : (finishCycle s).dl = some d) :
    s.dl = some d ∨ d.FromDecode := by
  refine decodeStage_dl ?_
  unfold finishCycle at h
  dsimp only at h
  split at h
  · exact h
  · rwa [fetchStage_dl] at h

/-- An Occupied `DL` after a cycle was there before it, or Decode filled it. -/
theorem step_dl {s t : State} (h : step s = .next t) {d : DecodeLatch} (hd : t.dl = some d) :
    s.dl = some d ∨ d.FromDecode := by
  rcases step_cases s with ⟨_, e⟩ | ⟨_, _, e⟩ | ⟨_, _, _, e⟩ | ⟨d', _, _, e⟩ | ⟨d', p, _, _, e⟩ |
    ⟨_, _, e⟩ | ⟨_, _, e⟩ <;> cases e.symm.trans h
  · exact .inl hd
  · exact finishCycle_dl hd
  · exact .inr ((finishCycle_dl hd).resolve_left nofun)
  · cases hd
  · cases hd
  · exact .inl hd

/-! ## The data bytes from 32 on -/

/-- The data addresses that an immediate can form: 0 to 31, and 0xFFE0 to 0xFFFF, which are out of range (R56). -/
theorem signExtend6_lt_or_ge (imm6 : BitVec 6) :
    (signExtend6 imm6).toNat < 32 ∨ Config.dmemBytes ≤ (signExtend6 imm6).toNat := by
  revert imm6; decide

theorem read_dmemWrite_signExtend6 (imm6 : BitVec 6) {k : Nat} (hk : 32 ≤ k) (dm : List Host.Cell) (v : Byte) :
    Memory.read (dmemWrite dm (signExtend6 imm6) v) k = Memory.read dm k := by
  rcases signExtend6_lt_or_ge imm6 with hlt | hge
  · exact read_dmemWrite_of_ne (Nat.ne_of_gt (Nat.lt_of_lt_of_le hlt hk)) dm v
  · rw [dmemWrite_of_ge hge]

theorem effectOf_read_dm_high {d : DecodeLatch} (hd : d.FromDecode) (s : State) {k : Nat} (hk : 32 ≤ k) :
    Memory.read (effectOf d.instr s d).dm k = Memory.read s.dm k := by
  rw [effectOf_dm]
  split
  case isTrue hop =>
    obtain ⟨imm6, hb⟩ := hd.store_address hop
    rw [hb, read_dmemWrite_signExtend6 imm6 hk]
  case isFalse => rfl

/-- The invariant behind R56: the high bytes are 0, and the instruction about to execute came through Decode. -/
structure HighBytesZero (s : State) : Prop where
  dl_decoded : ∀ d, s.dl = some d → d.FromDecode
  read_high : ∀ k, 32 ≤ k → Memory.read s.dm k = 0x00#8

theorem step_highBytesZero {s t : State} (h : step s = .next t) (hs : HighBytesZero s) : HighBytesZero t where
  dl_decoded d hd := (step_dl h hd).elim (hs.dl_decoded d) id
  read_high k hk := by
    rcases step_data_cases h with ⟨d, ⟨_, _, hd⟩, _, _, e⟩ | ⟨_, _, _, e⟩ <;> rw [e]
    · rw [effectOf_read_dm_high (hs.dl_decoded d hd) s hk, hs.read_high k hk]
    · exact hs.read_high k hk

/-- The loader accepts a program by its length, and changes nothing but the instruction memory (R52). -/
theorem boot_eq_some_iff (program : List Word) (s : State) :
    boot program = some s ↔
      program.length ≤ Config.imemWords ∧ s = { State.reset with im := imageFrom 0 program } := by
  rw [boot, State.load, Option.ite_none_right_eq_some, Option.some.injEq, eq_comm (b := s)]

theorem boot_highBytesZero {program : List Word} {s : State} (h : boot program = some s) : HighBytesZero s := by
  obtain ⟨_, rfl⟩ := (boot_eq_some_iff program s).1 h
  exact ⟨nofun, fun _ _ => rfl⟩

/-- What every step keeps holds after any number of cycles. -/
theorem afterCycles_invariant {P : State → Prop} (hstep : ∀ {s t}, step s = .next t → P s → P t)
    {n : Nat} {s t : State} (hrun : afterCycles n s = some t) (hs : P s) : P t := by
  induction n generalizing s with
  | zero =>
    cases hrun
    exact hs
  | succ n ih =>
    unfold afterCycles at hrun
    split at hrun
    case h_1 u hu => exact ih hrun (hstep hu hs)
    case h_2 => cases hrun
    case h_3 => cases hrun

/-- Settles O42: the invariant holds after boot and every step keeps it. -/
theorem dataBytesFromThirtyTwoStayZero : Obligations.DataBytesFromThirtyTwoStayZero := by
  intro program s t n hboot hrun
  exact (afterCycles_invariant step_highBytesZero hrun (boot_highBytesZero hboot)).read_high

end Sys2Proof.Machine
end

section
/-! PROOF. The decoder and the encoder (30_encoding.md R71 to R82). Two facts carry the round trips: a word is
its three fields (`Word.toNat_eq_fields`), and an encodable instruction is its opcode, `rs` and 6-bit field
(`instrOf_fields`); each of them has an inverse. -/

namespace Sys2Proof

/-! ## A word and its fields -/

/-- The three fields are all of the word (R71). -/
theorem Word.toNat_eq_fields (w : Word) :
    w.toNat = (opcodeField w).toNat * 4096 + (rsField w).toNat * 64 + (lowField w).toNat := by
  rw [opcodeField_toNat, rsField_toNat, lowField_toNat]
  omega

/-- `u(Enc) = u(op) * 4096 + u(rs) * 64 + u(f)` (R77). -/
theorem encodeFields_toNat (op : BitVec 4) (rs : RegIdx) (f : BitVec 6) :
    (encodeFields op rs f).toNat = op.toNat * 4096 + rs.toNat * 64 + f.toNat := by
  obtain ⟨hop, hrs, hlow⟩ := fields_of_encodeFields op rs f
  rw [Word.toNat_eq_fields, hop, hrs, hlow]

theorem encodeFields_fields (w : Word) : encodeFields (opcodeField w) (rsField w) (lowField w) = w :=
  BitVec.eq_of_toNat_eq ((encodeFields_toNat _ _ _).trans w.toNat_eq_fields.symm)

/-! ## The sign-extender and the second field -/

theorem signExtend6_getLsbD_of_lt (v : BitVec 6) {k : Nat} (hk : k < 6) :
    (signExtend6 v).getLsbD k = v.getLsbD k := by
  rw [signExtend6_eq, BitVec.getLsbD_signExtend]
  simp [hk, Nat.lt_trans hk (show 6 < 16 by decide)]

theorem signExtend6_getLsbD_of_ge (v : BitVec 6) {k : Nat} (hk : 6 ≤ k) (hk' : k < 16) :
    (signExtend6 v).getLsbD k = v.getLsbD 5 := by
  rw [signExtend6_eq, BitVec.getLsbD_signExtend]
  simp [hk', Nat.not_lt.2 hk, BitVec.msb_eq_getLsbD_last]

theorem signExtend6_toInt (v : BitVec 6) : (signExtend6 v).toInt = v.toInt :=
  BitVec.toInt_signExtend_of_le (show 6 ≤ 16 by decide)

theorem immInRange_iff (imm : WorkInt) : immInRange imm = true ↔ -32 ≤ imm.toInt ∧ imm.toInt ≤ 31 := by
  rw [immInRange, Bool.and_eq_true, decide_eq_true_eq, decide_eq_true_eq]

/-- Six bits of two's complement hold -32 to 31, so every 6-bit field is the encoding of an immediate. -/
@[simp] theorem immInRange_signExtend6 (f : BitVec 6) : immInRange (signExtend6 f) = true := by
  rw [immInRange_iff, signExtend6_toInt]
  exact ⟨BitVec.le_toInt f, Int.le_of_lt_add_one BitVec.toInt_lt⟩

/-- Truncation to 6 bits wraps the signed value modulo 64, into -32 to 31. -/
theorem imm6Of_toInt (imm : WorkInt) : (imm6Of imm).toInt = imm.toInt.bmod (2 ^ 6) := by
  rw [imm6Of, BitVec.toInt_setWidth, BitVec.toInt_eq_toNat_bmod,
    Int.bmod_bmod_of_dvd (Nat.pow_dvd_pow 2 (show 6 ≤ 16 by decide))]

@[simp] theorem imm6Of_signExtend6 (f : BitVec 6) : imm6Of (signExtend6 f) = f := by
  apply BitVec.eq_of_toInt_eq
  rw [imm6Of_toInt, signExtend6_toInt, BitVec.toInt_bmod_cancel]

/-- The extender undoes the truncation of an immediate that has an encoding (R77, R78). -/
theorem signExtend6_imm6Of {imm : WorkInt} (h : immInRange imm = true) : signExtend6 (imm6Of imm) = imm := by
  obtain ⟨hlo, hhi⟩ := (immInRange_iff imm).1 h
  apply BitVec.eq_of_toInt_eq
  calc (signExtend6 (imm6Of imm)).toInt
      = (imm6Of imm).toInt := signExtend6_toInt _
    _ = imm.toInt.bmod (2 ^ 6) := imm6Of_toInt imm
    _ = imm.toInt := Int.bmod_eq_of_le (by omega) (by omega)

@[simp] theorem rtOfSecond_zeroExtend6 (rt : RegIdx) : rtOfSecond (zeroExtend6 rt) = rt :=
  BitVec.setWidth_setWidth_of_le rt (show 6 ≤ 16 by decide)

/-! ## An instruction and its fields -/

/-- An encodable instruction is made of its own opcode, `rs` and 6-bit field. -/
theorem instrOf_fields {i : Instr} (h : i.encodable = true) :
    instrOf i.opcode i.rs (secondOf i.opcode.format i.low) = i := by
  cases i with
  | add rs rt | sub rs rt | mul rs rt | eor rs rt | br rs rt =>
    exact congrArg _ (rtOfSecond_zeroExtend6 rt)
  | movi rs imm | beqz rs imm | andi rs imm | sal rs imm | sar rs imm | ldr rs imm | str rs imm =>
    exact congrArg _ (signExtend6_imm6Of h)

/-- Any opcode, `rs` and 6-bit field make an encodable instruction that has them as its own: no field of a
valid word is a don't-care (R81, R82). -/
theorem fields_of_instrOf (op : Opcode) (rs : RegIdx) (f : BitVec 6) :
    (instrOf op rs (secondOf op.format f)).encodable = true ∧
    (instrOf op rs (secondOf op.format f)).opcode = op ∧
    (instrOf op rs (secondOf op.format f)).rs = rs ∧
    (instrOf op rs (secondOf op.format f)).low = f := by
  cases op with
  | add | sub | mul | eor | br => exact ⟨rfl, rfl, rfl, rtOfSecond_zeroExtend6 f⟩
  | movi | beqz | andi | sal | sar | ldr | str =>
    exact ⟨immInRange_signExtend6 f, rfl, rfl, imm6Of_signExtend6 f⟩

/-! ## When the decoder accepts -/

theorem decodeFields_of_ofBits {w : Word} {op : Opcode} (h : Opcode.ofBits (opcodeField w) = some op) :
    decodeFields w = .ok ⟨op, op.format, rsField w, secondOf op.format (lowField w)⟩ := by
  rw [decodeFields, h]

theorem decodeFields_of_gt {w : Word} (h : 11 < (opcodeField w).toNat) :
    decodeFields w = .error (.invalidOpcode (opcodeField w)) := by
  rw [decodeFields, (Opcode.ofBits_eq_none_iff _).2 h]

theorem exists_decodeFields_eq_ok {w : Word} (h : (opcodeField w).toNat ≤ 11) :
    ∃ c, decodeFields w = .ok c := by
  obtain ⟨op, hop⟩ := (Machine.exists_ofBits_eq_some_iff (opcodeField w)).2 (Nat.lt_succ_of_le h)
  exact ⟨_, decodeFields_of_ofBits hop⟩

theorem decode_eq_ok_iff (w : Word) (i : Instr) :
    decode w = .ok i ↔ ∃ c, decodeFields w = .ok c ∧ c.instr = i := by
  unfold decode
  cases decodeFields w <;> simp

theorem decode_eq_error_iff (w : Word) (e : DecodeError) :
    decode w = .error e ↔ decodeFields w = .error e := by
  unfold decode
  cases decodeFields w <;> simp

/-- The decoder rejects by the opcode field alone (R80). -/
theorem exists_decode_eq_error_iff (w : Word) : (∃ e, decode w = .error e) ↔ 11 < (opcodeField w).toNat := by
  simp only [decode_eq_error_iff]
  exact ⟨fun ⟨_, he⟩ => (decodeFields_error he).2, fun h => ⟨_, decodeFields_of_gt h⟩⟩

/-- The decoder on a word given by its fields, for any legal operands (R77). -/
theorem decode_encodeFields (op : Opcode) (rs : RegIdx) (f : BitVec 6) :
    decode (encodeFields op.toBits rs f) = .ok (instrOf op rs (secondOf op.format f)) := by
  obtain ⟨hop, hrs, hlow⟩ := fields_of_encodeFields op.toBits rs f
  have hdec := decodeFields_of_ofBits ((congrArg Opcode.ofBits hop).trans (Opcode.ofBits_toBits op))
  rw [hrs, hlow] at hdec
  exact (decode_eq_ok_iff _ _).2 ⟨_, hdec, rfl⟩

/-- An accepted word, and the instruction it stands for, are made of the same opcode, `rs` and 6-bit field. -/
theorem fields_of_decode {w : Word} {i : Instr} (h : decode w = .ok i) :
    ∃ op : Opcode, op.toBits = opcodeField w ∧ i = instrOf op (rsField w) (secondOf op.format (lowField w)) := by
  obtain ⟨c, hc, rfl⟩ := (decode_eq_ok_iff w i).1 h
  obtain ⟨hop, hfmt, hrs, hsecond⟩ := decodeFields_ok hc
  exact ⟨c.opcode, hop, by rw [Decoded.instr, hsecond, hfmt, hrs]⟩

/-! ## The round trips -/

theorem decode_encode {i : Instr} (h : i.encodable = true) : decode (encode i) = .ok i := by
  rw [encode, decode_encodeFields, instrOf_fields h]

theorem encode_instrOf (op : Opcode) (rs : RegIdx) (f : BitVec 6) :
    encode (instrOf op rs (secondOf op.format f)) = encodeFields op.toBits rs f := by
  obtain ⟨_, hop, hrs, hlow⟩ := fields_of_instrOf op rs f
  rw [encode, hop, hrs, hlow]

/-- Settles O1. -/
theorem encodeThenDecodeGivesInstruction : Obligations.EncodeThenDecodeGivesInstruction :=
  fun _ h => ⟨decode_encode h, encodeFields_toNat _ _ _⟩

/-- Settles O2: the instruction is made of the word's fields, and they are all of the word. -/
theorem decodeThenEncodeGivesWord : Obligations.DecodeThenEncodeGivesWord := by
  intro w i h
  obtain ⟨op, hop, rfl⟩ := fields_of_decode h
  obtain ⟨henc, _⟩ := fields_of_instrOf op (rsField w) (lowField w)
  exact ⟨henc, by rw [encode_instrOf, hop, encodeFields_fields]⟩

/-! ## The decoder's record -/

/-- R72, R73: the R-format opcodes by number. -/
theorem Opcode.format_eq_register_iff (op : Opcode) :
    op.format = .register ↔ op.toBits.toNat ∈ [0, 1, 2, 6, 7] := by
  cases op <;> decide

/-- Settles O3: beyond the bound `decodeFields_of_gt`, and below it the fields of `decodeFields_ok`. -/
theorem decoderReturnsSpecRecord : Obligations.DecoderReturnsSpecRecord := by
  intro w
  refine ⟨decodeFields_of_gt, fun hle => ?_⟩
  obtain ⟨c, hc⟩ := exists_decodeFields_eq_ok hle
  obtain ⟨hop, hfmt, hrs, hsecond⟩ := decodeFields_ok hc
  have hregister : c.fmt = .register ↔ (opcodeField w).toNat ∈ [0, 1, 2, 6, 7] := by
    rw [hfmt, Opcode.format_eq_register_iff, hop]
  have hsecond_of {fmt : Format} (h : c.fmt = fmt) : c.second = secondOf fmt (lowField w) := by
    rw [hsecond, h]
  exact ⟨c, hc, hop, hregister, hrs, hsecond_of, hsecond_of⟩

/-- Settles O4: `0xC000` is 12 * 4096, and the opcode field is the word over 4096. -/
theorem decoderRejectsExactlyFromC000 : Obligations.DecoderRejectsExactlyFromC000 := by
  intro w
  rw [exists_decode_eq_error_iff, opcodeField_toNat]
  omega

/-- Settles O5. -/
theorem signExtenderReplicatesBitFive : Obligations.SignExtenderReplicatesBitFive := by
  refine ⟨fun v => ⟨fun _ => signExtend6_getLsbD_of_lt v, fun _ => signExtend6_getLsbD_of_ge v,
    signExtend6_toInt v, (immInRange_iff _).1 (immInRange_signExtend6 v)⟩, ?_⟩
  intro w c hc hfmt
  obtain ⟨_, _, _, hsecond⟩ := decodeFields_ok hc
  rw [hsecond, hfmt]
  rfl

/-- Settles O6: the accepted words are the encodings of the instructions written; the last has opcode 12. -/
theorem specWordsDecodeAsWritten : Obligations.SpecWordsDecodeAsWritten :=
  ⟨decode_encode (i := .sub 63#6 1#6) rfl, decode_encode (i := .movi 63#6 0xFFFF#16) rfl,
    decode_encode (i := .sar 1#6 0xFFE0#16) rfl, decode_encode (i := .str 31#6 0xFFE0#16) rfl,
    decode_encode (i := .beqz 1#6 2#16) rfl, decode_encode (i := .br 4#6 5#6) rfl,
    (decode_eq_error_iff _ _).2 (decodeFields_of_gt (by decide))⟩

end Sys2Proof
end

section
/-! PROOF. The stages and the cycle driver (40_pipeline.md R100 to R117). A running cycle is Execute, then Decode,
then Fetch; `State.executed` names the state between Execute and Decode, and one rule per stage and case says
what comes of it. Statements about a cycle are read off the composition of these rules (`step_of_running`). -/

namespace Sys2Proof.Machine

/-! ## The Fetch stage -/

theorem fetchStage_of_idle {s : State} (h : s.stall ≠ 0#2 ∨ Config.imemWords ≤ s.pc.toNat) :
    fetchStage s = s := by
  refine if_neg fun hen => ?_
  obtain ⟨h0, hpc⟩ := (fetchEnabled_iff s).1 hen
  exact h.elim (fun hne => hne h0) (Nat.not_le.2 hpc)

theorem fetchStage_of_sentinel {s : State} (h0 : s.stall = 0#2) (hpc : s.pc.toNat < Config.imemWords)
    (hw : imemRead s.im s.pc = 0#16) : fetchStage s = { s with pc := 1024#16 } := by
  rw [fetchStage, if_pos ((fetchEnabled_iff s).2 ⟨h0, hpc⟩), if_pos hw]

theorem fetchStage_of_word {s : State} (h0 : s.stall = 0#2) (hpc : s.pc.toNat < Config.imemWords)
    (hw : imemRead s.im s.pc ≠ 0#16) :
    fetchStage s =
      { s with fl := some { raw := imemRead s.im s.pc, fetchPC := s.pc }, pc := s.pc + 1#16 } := by
  rw [fetchStage, if_pos ((fetchEnabled_iff s).2 ⟨h0, hpc⟩), if_neg hw]

/-- Settles O27: the three rules of Fetch. -/
theorem fetchReadsWordOrSentinel : Obligations.FetchReadsWordOrSentinel :=
  fun _ => ⟨fetchStage_of_word, fetchStage_of_sentinel, fetchStage_of_idle⟩

/-- Fetch changes nothing but `pc` and `FL`. -/
theorem fetchStage_frame (s : State) :
    fetchStage s = { s with pc := (fetchStage s).pc, fl := (fetchStage s).fl } := by
  rcases fetchStage_cases s with ⟨_, e⟩ | ⟨_, _, e⟩ | ⟨_, _, e⟩ <;> rw [e]

@[simp] theorem fetchStage_x (s : State) : (fetchStage s).x = s.x := by
  rw [fetchStage_frame]
@[simp] theorem fetchStage_sr (s : State) : (fetchStage s).sr = s.sr := by
  rw [fetchStage_frame]
@[simp] theorem fetchStage_stall (s : State) : (fetchStage s).stall = s.stall := by
  rw [fetchStage_frame]
@[simp] theorem fetchStage_faulted (s : State) : (fetchStage s).faulted = s.faulted := by
  rw [fetchStage_frame]
@[simp] theorem fetchStage_im (s : State) : (fetchStage s).im = s.im := by
  rw [fetchStage_frame]
@[simp] theorem fetchStage_dm (s : State) : (fetchStage s).dm = s.dm := by
  rw [fetchStage_frame]

/-- A word that Fetch puts into an Empty `FL` was read at the `pc` that Fetch met. -/
theorem fetchStage_fetchPC {s : State} (hfl : s.fl = none) {g : FetchLatch} (hg : (fetchStage s).fl = some g) :
    g.fetchPC = s.pc := by
  rcases fetchStage_cases s with ⟨_, e⟩ | ⟨_, _, e⟩ | ⟨_, _, e⟩ <;> rw [e] at hg
  · simp [hfl] at hg
  · simp [hfl] at hg
  · cases hg
    rfl

/-! ## The Decode stage -/

theorem decodeStage_of_empty {s : State} (hfl : s.fl = none) : decodeStage s = s := by
  rw [decodeStage, hfl, ite_self]

theorem decodeStage_of_invalid {s : State} {f : FetchLatch} {e : DecodeError} (h0 : s.stall = 0#2)
    (hfl : s.fl = some f) (he : decodeFields f.raw = .error e) :
    decodeStage s = s.takeDecodeFault f.fetchPC f.raw := by
  simp only [decodeStage, h0, hfl, he, if_true]

theorem decodeStage_of_valid {s : State} {f : FetchLatch} {c : Decoded} (h0 : s.stall = 0#2)
    (hfl : s.fl = some f) (hc : decodeFields f.raw = .ok c) :
    decodeStage s = { s with dl := some (latchOf s f.raw f.fetchPC c), fl := none } := by
  simp only [decodeStage, h0, hfl, hc, if_true]

@[simp] theorem decodeStage_pc (s : State) : (decodeStage s).pc = s.pc := by
  rcases decodeStage_cases s with ⟨_, e⟩ | ⟨_, _, e⟩ | ⟨_, _, _, _, _, e⟩ | ⟨_, _, _, _, _, e⟩ <;> simp [e]

@[simp] theorem decodeStage_stall (s : State) : (decodeStage s).stall = s.stall := by
  rcases decodeStage_cases s with ⟨_, e⟩ | ⟨_, _, e⟩ | ⟨_, _, _, _, _, e⟩ | ⟨_, _, _, _, _, e⟩ <;> simp [e]

/-- Decode faults exactly on a word with opcode 12 to 15 (R104, R107). -/
theorem decodeStage_faulted_iff {s : State} (hf : s.faulted = none) (h0 : s.stall = 0#2) :
    (decodeStage s).faulted = none ↔ ∀ f ∈ s.fl, (opcodeField f.raw).toNat ≤ 11 := by
  cases hfl : s.fl with
  | none => simp [decodeStage_of_empty hfl, hf]
  | some f =>
    by_cases hop : (opcodeField f.raw).toNat ≤ 11
    · obtain ⟨c, hc⟩ := exists_decodeFields_eq_ok hop
      simp [decodeStage_of_valid h0 hfl hc, hf, hop]
    · simp [decodeStage_of_invalid h0 hfl (decodeFields_of_gt (Nat.not_le.1 hop)), hop]

/-! ## Decode and Fetch -/

theorem finishCycle_eq_fetchStage {s : State} (h : (decodeStage s).faulted = none) :
    finishCycle s = fetchStage (decodeStage s) :=
  if_neg (by simp [State.isFaulted_iff, h])

theorem finishCycle_of_empty {s : State} (hf : s.faulted = none) (hfl : s.fl = none) :
    finishCycle s = fetchStage s := by
  have hd := decodeStage_of_empty hfl
  rw [finishCycle_eq_fetchStage (by rw [hd, hf]), hd]

theorem finishCycle_of_valid {s : State} {f : FetchLatch} {c : Decoded} (hf : s.faulted = none)
    (h0 : s.stall = 0#2) (hfl : s.fl = some f) (hc : decodeFields f.raw = .ok c) :
    finishCycle s = fetchStage { s with dl := some (latchOf s f.raw f.fetchPC c), fl := none } := by
  have hd := decodeStage_of_valid h0 hfl hc
  rw [finishCycle_eq_fetchStage (by rw [hd, hf]), hd]

theorem finishCycle_of_invalid {s : State} {f : FetchLatch} {e : DecodeError} (h0 : s.stall = 0#2)
    (hfl : s.fl = some f) (he : decodeFields f.raw = .error e) :
    finishCycle s = s.takeDecodeFault f.fetchPC f.raw := by
  have hd := decodeStage_of_invalid h0 hfl he
  rw [finishCycle, hd]
  exact if_pos rfl

/-- Fetch raises no fault, so the fault record after a cycle is Decode's. -/
theorem finishCycle_faulted (s : State) : (finishCycle s).faulted = (decodeStage s).faulted := by
  unfold finishCycle
  dsimp only
  split
  · rfl
  · exact fetchStage_faulted _

/-! ## The Execute stage -/

/-- The state that Execute leaves for Decode (R108). -/
def State.executed (s : State) : State :=
  match s.dl with
  | none => s
  | some d => { effectOf d.instr s d with dl := none }

theorem State.executed_of_empty {s : State} (hd : s.dl = none) : s.executed = s := by
  simp only [State.executed, hd]

theorem State.executed_of_occupied {s : State} {d : DecodeLatch} (hd : s.dl = some d) :
    s.executed = { effectOf d.instr s d with dl := none } := by
  simp only [State.executed, hd]

theorem executeStage_eq (s : State) : executeStage s = .next s.executed := by
  rcases executeStage_cases s with ⟨hd, e⟩ | ⟨d, hd, e⟩
  · rw [e, State.executed_of_empty hd]
  · rw [e, State.executed_of_occupied hd]

theorem executeStage_eq_next_iff (s t : State) : executeStage s = .next t ↔ t = s.executed := by
  rw [executeStage_eq, Host.Outcome.next.injEq, eq_comm]

@[simp] theorem State.executed_dl (s : State) : s.executed.dl = none := by
  cases hd : s.dl with
  | none => rw [State.executed_of_empty hd, hd]
  | some d => rw [State.executed_of_occupied hd]

@[simp] theorem State.executed_im (s : State) : s.executed.im = s.im := by
  cases hd : s.dl with
  | none => rw [State.executed_of_empty hd]
  | some d => rw [State.executed_of_occupied hd]; exact effectOf_im _ s d

@[simp] theorem State.executed_faulted (s : State) : s.executed.faulted = s.faulted := by
  cases hd : s.dl with
  | none => rw [State.executed_of_empty hd]
  | some d =>
    obtain ⟨_, hf, _⟩ := effectOf_keeps d.instr s d
    rwa [State.executed_of_occupied hd]

theorem State.executed_dm_wf {s : State} (h : Memory.wf Config.dmemBytes s.dm = true) :
    Memory.wf Config.dmemBytes s.executed.dm = true := by
  cases hd : s.dl with
  | none => rwa [State.executed_of_empty hd]
  | some d => rw [State.executed_of_occupied hd]; exact effectOf_dm_wf h d.instr d

/-- After an instruction that makes no control transfer, Decode and Fetch meet `pc`, `FL` and the stall counter
as the cycle started with them. -/
theorem State.executed_pipeline {s : State} (hr : ∀ d ∈ s.dl, d.redirect = none) :
    s.executed.pc = s.pc ∧ s.executed.fl = s.fl ∧ s.executed.stall = s.stall := by
  cases hd : s.dl with
  | none =>
    rw [State.executed_of_empty hd]
    exact ⟨rfl, rfl, rfl⟩
  | some d =>
    obtain ⟨hpc, hfl, _, hstall, _⟩ := (effectOf_pipeline s d).1 (hr d hd)
    rw [State.executed_of_occupied hd]
    exact ⟨hpc, hfl, hstall⟩

/-- A control transfer is all of what its instruction does (R110, R170). -/
theorem State.executed_of_redirect {s : State} {d : DecodeLatch} {p : WorkInt} (hd : s.dl = some d)
    (hr : d.redirect = some p) : s.executed = s.transferTo p := by
  rw [State.executed_of_occupied hd, (effectOf_pipeline s d).2 p hr]
  rfl

/-- Execute leaves a running core running unless it makes a control transfer. -/
theorem State.executed_stall_eq_zero_iff {s : State} (h0 : s.stall = 0#2) :
    s.executed.stall = 0#2 ↔ ∀ d ∈ s.dl, d.redirect = none := by
  constructor
  · intro h d hd
    by_contra hne
    obtain ⟨p, hp⟩ := Option.ne_none_iff_exists'.1 hne
    simp [State.executed_of_redirect hd hp] at h
  · intro hr
    obtain ⟨_, _, hstall⟩ := State.executed_pipeline hr
    rw [hstall, h0]

theorem exec_of_empty {s : State} (hd : s.dl = none) (i : Instr) : exec i s = .next s := by
  cases i <;> exact executing_none hd _

/-- Settles O9. -/
theorem executeDoesNothingOnEmptyLatch : Obligations.ExecuteDoesNothingOnEmptyLatch :=
  fun s hd => ⟨(executeStage_eq_next_iff s s).2 (State.executed_of_empty hd).symm, exec_of_empty hd⟩

/-! ## The cycle driver -/

theorem step_of_faulted {s : State} (hf : s.faulted ≠ none) : step s = .next s :=
  if_pos (s.isFaulted_iff.2 hf)

/-- A running cycle (R111). -/
theorem step_of_running {s : State} (hf : s.faulted = none) (h0 : s.stall = 0#2) :
    step s = .next (finishCycle s.executed) := by
  simp [step, cycle, State.isFaulted, hf, stallMalformed, h0, executeStage_eq]

theorem step_of_stall_two {s : State} (hf : s.faulted = none) (h2 : s.stall = 2#2) :
    step s = .next { s with stall := 1#2 } := by
  simp [step, cycle, State.isFaulted, hf, stallMalformed, stallCountdown, h2]

theorem step_of_stall_one {s : State} (hf : s.faulted = none) (h1 : s.stall = 1#2) :
    step s = .next { s with stall := 0#2, fl := none, dl := none } := by
  simp [step, cycle, State.isFaulted, hf, stallMalformed, stallCountdown, h1]

theorem step_of_stall_three {s : State} (hf : s.faulted = none) (h3 : s.stall = 3#2) :
    step s = .fault .malformedStall := by
  simp [step, cycle, State.isFaulted, hf, stallMalformed, h3]

theorem stall_cases (k : BitVec 2) : k = 0#2 ∨ k = 1#2 ∨ k = 2#2 ∨ k = 3#2 := by
  revert k; decide

/-- What a step that answers a next state has done, by the control state it started in. Unlike `step_cases` it
keeps a running cycle in one piece, as the state that Execute leaves and what follows it. -/
theorem step_next_cases {s t : State} (h : step s = .next t) :
    (s.faulted ≠ none ∧ t = s) ∨
    (s.faulted = none ∧ s.stall = 0#2 ∧ t = finishCycle s.executed) ∨
    (s.faulted = none ∧ s.stall = 1#2 ∧ t = { s with stall := 0#2, fl := none, dl := none }) ∨
    (s.faulted = none ∧ s.stall = 2#2 ∧ t = { s with stall := 1#2 }) := by
  by_cases hf : s.faulted = none
  · rcases stall_cases s.stall with h0 | h1 | h2 | h3
    · cases (step_of_running hf h0).symm.trans h
      exact .inr (.inl ⟨hf, h0, rfl⟩)
    · cases (step_of_stall_one hf h1).symm.trans h
      exact .inr (.inr (.inl ⟨hf, h1, rfl⟩))
    · cases (step_of_stall_two hf h2).symm.trans h
      exact .inr (.inr (.inr ⟨hf, h2, rfl⟩))
    · cases (step_of_stall_three hf h3).symm.trans h
  · cases (step_of_faulted hf).symm.trans h
    exact .inl ⟨hf, rfl⟩

/-- Settles O31. -/
theorem stalledCycleOnlyCountsDown : Obligations.StalledCycleOnlyCountsDown :=
  fun _ hf => ⟨step_of_stall_two hf, step_of_stall_one hf⟩

theorem afterCycles_succ {s t : State} (h : step s = .next t) (n : Nat) :
    afterCycles (n + 1) s = afterCycles n t := by
  simp only [afterCycles, h]

/-- Settles O37, by induction on the number of cycles. -/
theorem faultedCoreChangesNothing : Obligations.FaultedCoreChangesNothing := by
  intro s n hf
  induction n with
  | zero => rfl
  | succ n ih => rw [afterCycles_succ (step_of_faulted hf), ih]

/-- Settles O7: the word decodes to the instruction that the latch's own fields make. -/
theorem stepRunsDecodedInstruction : Obligations.StepRunsDecodedInstruction := by
  rintro s d i ⟨hf, h0, hd⟩ hdec hi
  obtain ⟨c, hc, rfl⟩ := (decode_eq_ok_iff d.raw i).1 hi
  cases hdec.symm.trans hc
  refine ⟨_, exec_eq_effectOf hd _, ?_⟩
  rw [step_of_running hf h0, State.executed_of_occupied hd]
  rfl

/-! ## Control transfers -/

/-- Settles O29: the target is that of `redirect_eq_some_iff`, and a BEQZ that is not taken leaves Execute with
the state it met. -/
theorem controlTransferFlushesAndStalls : Obligations.ControlTransferFlushesAndStalls := by
  intro s d hx
  refine ⟨fun p hp => step_of_redirect hx hp, fun hop => ?br, fun hop ha => ?taken, fun hop ha => ?notTaken⟩
  case br => exact (redirect_eq_some_iff d _).2 (.inr ⟨hop, rfl⟩)
  case taken => exact (redirect_eq_some_iff d _).2 (.inl ⟨hop, ha, rfl⟩)
  case notTaken =>
    obtain ⟨hf, h0, hd⟩ := hx
    have heffect : effectOf d.instr s d = s := by
      rw [DecodeLatch.instr, hop]
      exact if_neg ha
    rw [step_of_running hf h0, State.executed_of_occupied hd, heffect]

/-! ## A valid word in `FL` -/

/-- A running cycle with a valid word in `FL` and no control transfer: Decode fills `DL` with the registers that
Execute left (R105, R119), then Fetch runs. -/
theorem step_of_valid {s : State} {f : FetchLatch} {c : Decoded} (hf : s.faulted = none) (h0 : s.stall = 0#2)
    (hfl : s.fl = some f) (hr : ∀ d ∈ s.dl, d.redirect = none) (hc : decodeFields f.raw = .ok c) :
    step s = .next (fetchStage
      { s.executed with dl := some (latchOf s.executed f.raw f.fetchPC c), fl := none }) := by
  obtain ⟨_, hfl', hstall⟩ := State.executed_pipeline hr
  rw [step_of_running hf h0,
    finishCycle_of_valid (s.executed_faulted.trans hf) (hstall.trans h0) (hfl'.trans hfl) hc]

theorem step_of_valid_of_empty {s : State} {f : FetchLatch} {c : Decoded} (hf : s.faulted = none)
    (h0 : s.stall = 0#2) (hfl : s.fl = some f) (hd : s.dl = none) (hc : decodeFields f.raw = .ok c) :
    step s = .next (fetchStage { s with dl := some (latchOf s f.raw f.fetchPC c), fl := none }) := by
  rw [step_of_running hf h0, State.executed_of_empty hd, finishCycle_of_valid hf h0 hfl hc]

theorem rtOfSecond_eq (second : WorkInt) : rtOfSecond second = second.extractLsb' 0 6 :=
  BitVec.setWidth_eq_extractLsb' (show 6 ≤ 16 by decide)

theorem secondValueAt_of_register (s : State) {fmt : Format} (h : fmt = .register) (second : WorkInt) :
    secondValueAt s fmt second = (s.reg (second.extractLsb' 0 6)).setWidth 16 := by
  rw [h, ← rtOfSecond_eq]
  rfl

theorem secondValueAt_of_immediate (s : State) {fmt : Format} (h : fmt = .immediate) (second : WorkInt) :
    secondValueAt s fmt second = second := by
  rw [h]
  rfl

/-- Settles O28. -/
theorem decodeReadsSameCycleWrites : Obligations.DecodeReadsSameCycleWrites := by
  intro s t f c hf h0 hfl hr hc ht
  obtain rfl := (executeStage_eq_next_iff s t).1 ht
  refine ⟨_, _, step_of_valid hf h0 hfl hr hc, fetchStage_dl _, ?_, rfl, rfl, rfl, rfl, rfl, rfl,
    fun h => secondValueAt_of_register _ h _, fun h => secondValueAt_of_immediate _ h _,
    State.reg_congr ((fetchStage_x _).trans rfl), fun g hg => ?_⟩
  · exact (fetchStage_faulted _).trans (s.executed_faulted.trans hf)
  · exact fetchStage_fetchPC
      (s := { s.executed with dl := some (latchOf s.executed f.raw f.fetchPC c), fl := none }) rfl hg

theorem step_of_word_at_pc {s : State} (hf : s.faulted = none) (h0 : s.stall = 0#2) (hfl : s.fl = none)
    (hd : s.dl = none) (hpc : s.pc.toNat < Config.imemWords) (hw : imemRead s.im s.pc ≠ 0#16) :
    step s =
      .next { s with fl := some { raw := imemRead s.im s.pc, fetchPC := s.pc }, pc := s.pc + 1#16 } := by
  rw [step_of_running hf h0, State.executed_of_empty hd, finishCycle_of_empty hf hfl,
    fetchStage_of_word h0 hpc hw]

/-- The operands that Decode puts into `DL` are those of the instruction that the word decodes to (R105, R106). -/
theorem latchOf_operands {w : Word} {c : Decoded} (hc : decodeFields w = .ok c) (s : State) (pc : WorkInt) :
    (latchOf s w pc c).sourceValue = s.reg c.instr.rs ∧
    (c.instr.opcode.format = .register → (latchOf s w pc c).secondValue = (s.reg c.instr.low).setWidth 16) ∧
    (c.instr.opcode.format = .immediate → (latchOf s w pc c).secondValue = c.instr.low.signExtend 16) := by
  obtain ⟨_, hfmt, _, hsecond⟩ := decodeFields_ok hc
  obtain ⟨_, hop, hrs, hlow⟩ := fields_of_instrOf c.opcode c.rs (lowField w)
  rw [← hfmt, ← hsecond] at hop hrs hlow
  rw [Decoded.instr, hop, hrs, hlow, ← hfmt]
  refine ⟨rfl, fun h => ?register, fun h => ?immediate⟩
  case register =>
    have hrt : rtOfSecond c.second = lowField w := by rw [hsecond, h]; exact rtOfSecond_zeroExtend6 _
    rw [← hrt, rtOfSecond_eq]
    exact secondValueAt_of_register s h c.second
  case immediate =>
    have himm : c.second = signExtend6 (lowField w) := by rw [hsecond, h]; rfl
    rw [← signExtend6_eq, ← himm]
    exact secondValueAt_of_immediate s h c.second

/-- Settles O8: the word is fetched by `step_of_word_at_pc` and decoded by `step_of_valid_of_empty`; the
operands that the latch names are those of the instruction's own fields. -/
theorem fetchedWordReachesExecute : Obligations.FetchedWordReachesExecute := by
  intro s i hf h0 hfl hd hpc hw hi
  obtain ⟨c, hc, rfl⟩ := (decode_eq_ok_iff _ i).1 hi
  refine ⟨_, _, _, step_of_word_at_pc hf h0 hfl hd hpc hw, step_of_valid_of_empty hf h0 rfl hd hc,
    ⟨?_, ?_, fetchStage_dl _⟩, rfl, rfl, rfl, ?_⟩
  · exact (fetchStage_faulted _).trans hf
  · exact (fetchStage_stall _).trans h0
  · obtain ⟨hsource, hregister, himmediate⟩ := latchOf_operands hc { s with
      fl := some { raw := imemRead s.im s.pc, fetchPC := s.pc }, pc := s.pc + 1#16 } s.pc
    exact ⟨hsource, hregister, himmediate, fetchStage_x _, fetchStage_sr _, fetchStage_dm _, fetchStage_im _⟩

/-! ## The decode fault -/

/-- Settles O35. -/
theorem invalidWordTakesDecodeFault : Obligations.InvalidWordTakesDecodeFault := by
  intro s t f hf h0 hfl hr hop ht
  obtain rfl := (executeStage_eq_next_iff s t).1 ht
  obtain ⟨hpc, hfl', hstall⟩ := State.executed_pipeline hr
  refine ⟨s.executed.takeDecodeFault f.fetchPC f.raw, ?_, rfl, hfl'.trans hfl, s.executed_dl, hpc,
    step_of_faulted nofun⟩
  rw [step_of_running hf h0,
    finishCycle_of_invalid (hstall.trans h0) (hfl'.trans hfl) (decodeFields_of_gt hop)]

/-! ## The control state machine -/

/-- The four states of R114 as conditions on the state. -/
theorem State.control_iff (s : State) :
    (s.control = some .fault ↔ s.faulted ≠ none) ∧
    (s.control = some .run ↔ s.faulted = none ∧ s.stall = 0#2) ∧
    (s.control = some .stall1 ↔ s.faulted = none ∧ s.stall = 1#2) ∧
    (s.control = some .stall2 ↔ s.faulted = none ∧ s.stall = 2#2) := by
  unfold State.control
  simp only [State.isFaulted_iff]
  generalize s.stall = k
  by_cases hf : s.faulted = none
  · simp only [hf]
    revert k
    decide
  · simp [hf]

/-- After a running cycle without a control transfer the core is faulted or running, by the opcode in `FL`. -/
theorem finishCycle_executed_faulted_iff {s : State} (hf : s.faulted = none) (h0 : s.stall = 0#2)
    (hr : ∀ d ∈ s.dl, d.redirect = none) :
    (finishCycle s.executed).faulted = none ↔ ∀ f ∈ s.fl, (opcodeField f.raw).toNat ≤ 11 := by
  obtain ⟨_, hfl, hstall⟩ := State.executed_pipeline hr
  rw [finishCycle_faulted, decodeStage_faulted_iff (s.executed_faulted.trans hf) (hstall.trans h0), hfl]

/-- Settles O32: one row of R114 per clause. -/
theorem controlStateMachineTransitions : Obligations.ControlStateMachineTransitions := by
  intro s t h
  obtain ⟨hfault, hrun, hstall1, hstall2⟩ := s.control_iff
  obtain ⟨hfault', hrun', hstall1', hstall2'⟩ := t.control_iff
  rw [hfault, hrun, hstall1, hstall2, hfault', hrun', hstall1', hstall2']
  refine ⟨fun hf => ?fault, fun ⟨hf, h2⟩ => ?stall2, fun ⟨hf, h1⟩ => ?stall1,
    fun ⟨hf, h0⟩ ⟨d, hd, hne⟩ => ?transfer, fun ⟨hf, h0⟩ hr ⟨f, hfl, hop⟩ => ?invalid, fun ⟨hf, h0⟩ hr hop => ?run⟩
  case fault => exact (Host.Outcome.next.inj ((step_of_faulted hf).symm.trans h)).symm
  case stall2 =>
    cases (step_of_stall_two hf h2).symm.trans h
    exact ⟨hf, rfl⟩
  case stall1 =>
    cases (step_of_stall_one hf h1).symm.trans h
    exact ⟨⟨hf, rfl⟩, rfl, rfl⟩
  case transfer =>
    obtain ⟨p, hp⟩ := Option.ne_none_iff_exists'.1 hne
    cases (step_of_redirect ⟨hf, h0, hd⟩ hp).symm.trans h
    exact ⟨hf, rfl⟩
  case invalid =>
    cases (step_of_running hf h0).symm.trans h
    exact fun hn => Nat.not_le.2 hop ((finishCycle_executed_faulted_iff hf h0 hr).1 hn f hfl)
  case run =>
    cases (step_of_running hf h0).symm.trans h
    exact ⟨(finishCycle_executed_faulted_iff hf h0 hr).2 hop,
      (finishCycle_stall _).trans ((State.executed_stall_eq_zero_iff h0).2 hr)⟩

/-! ## The instruction-memory port -/

/-- The port is active when Decode did not fault and Fetch reads (R35, R111). -/
theorem imemPort_eq_some_iff (s : State) (a : BitVec 10) :
    imemPort s = some a ↔
      s.faulted = none ∧ s.stall = 0#2 ∧ (decodeStage s.executed).faulted = none ∧
      fetchEnabled (decodeStage s.executed) = true ∧ a = (decodeStage s.executed).pc.extractLsb' 0 10 := by
  simp only [imemPort, executeStage_eq, State.isFaulted_iff, ite_not]
  rw [eq_comm (a := a)]
  by_cases hf : s.faulted = none <;> by_cases h0 : s.stall = 0#2 <;>
    by_cases hd : (decodeStage s.executed).faulted = none <;> simp [hf, h0, hd]

/-- `pc[9:0]` loses no bit of an address below the bound. -/
theorem extractLsb'_toNat_of_fetchable {p : WorkInt} (h : p.toNat < 1024) :
    (p.extractLsb' 0 10).toNat = p.toNat := by
  rw [BitVec.extractLsb'_toNat, Nat.shiftRight_zero, Nat.mod_eq_of_lt h]

/-- Settles O34: Execute leaves the stall counter 0 exactly when it makes no control transfer, and then `pc`, `FL`
and the fault record are those the cycle started with. -/
theorem fetchAddressIsStartingPc : Obligations.FetchAddressIsStartingPc := by
  intro s a
  have active : imemPort s = some a ↔
      s.faulted = none ∧ s.stall = 0#2 ∧ s.pc.toNat < 1024 ∧ (∀ d ∈ s.dl, d.redirect = none) ∧
      (∀ f ∈ s.fl, (opcodeField f.raw).toNat ≤ 11) ∧ a = s.pc.extractLsb' 0 10 := by
    rw [imemPort_eq_some_iff, fetchEnabled_iff, decodeStage_pc, decodeStage_stall]
    refine and_congr_right fun hf => and_congr_right fun h0 => ?_
    rw [State.executed_stall_eq_zero_iff h0]
    by_cases hr : ∀ d ∈ s.dl, d.redirect = none
    · obtain ⟨hpc, hfl, hstall⟩ := State.executed_pipeline hr
      rw [decodeStage_faulted_iff (s.executed_faulted.trans hf) (hstall.trans h0), hpc, hfl]
      tauto
    · tauto
  refine ⟨active, fun h => ?_⟩
  obtain ⟨_, _, hpc, _, _, rfl⟩ := active.1 h
  exact extractLsb'_toNat_of_fetchable hpc

/-! ## The halted core -/

/-- A halted core stays halted in every cycle, and only the stall counter changes, down to 0 (R117). -/
theorem step_of_halted {s : State} (h : s.halted = true) (h3 : s.stall ≠ 3#2) :
    ∃ k : BitVec 2, step s = .next { s with stall := k } ∧ k.toNat = s.stall.toNat - 1 := by
  obtain ⟨hf, hpc, hfl, hd⟩ := s.halted_iff.1 h
  rcases stall_cases s.stall with h0 | h1 | h2 | h3'
  · refine ⟨s.stall, ?_, by rw [h0]; rfl⟩
    rw [step_of_running hf h0, State.executed_of_empty hd, finishCycle_of_empty hf hfl,
      fetchStage_of_idle (.inr hpc)]
  · refine ⟨0#2, ?_, by rw [h1]; rfl⟩
    rw [step_of_stall_one hf h1, ← hfl, ← hd]
  · exact ⟨1#2, step_of_stall_two hf h2, by rw [h2]; rfl⟩
  · exact absurd h3' h3

/-- Settles O33, by induction on the number of cycles. -/
theorem haltedCoreStaysHalted : Obligations.HaltedCoreStaysHalted := by
  refine fun s => ⟨s.halted_iff, fun h h3 n => ?_⟩
  induction n generalizing s with
  | zero => exact ⟨s, rfl, h, rfl, rfl⟩
  | succ n ih =>
    obtain ⟨k, hstep, hk⟩ := step_of_halted h h3
    have hk3 : k ≠ 3#2 := by
      rintro rfl
      have := s.stall.isLt
      simp at hk
      omega
    obtain ⟨t, hrun, ht, heq, hn⟩ := ih { s with stall := k } h hk3
    refine ⟨t, (afterCycles_succ hstep n).trans hrun, ht, heq, ?_⟩
    rw [hn]
    dsimp only
    omega

end Sys2Proof.Machine
end

section
/-! PROOF. The invariants of 40_pipeline.md R118. Execute keeps them, and so do Decode and Fetch together; Decode
alone does not: between Decode and Fetch, `pc` has not met the end of the program yet. -/

namespace Sys2Proof

open Machine

/-- A core with Empty latches has only the memories and the counter to answer for. -/
theorem Inv.of_emptyLatches {s : State} (him : Memory.wf Config.imemWords s.im = true)
    (hdm : Memory.wf Config.dmemBytes s.dm = true) (hstall : s.stall.toNat ≤ Config.stallDepth)
    (hf : s.faulted = none) (hfl : s.fl = none) (hd : s.dl = none) : Inv s where
  im_wf := him
  dm_wf := hdm
  stall_le := hstall
  stalled_empty _ := ⟨hfl, hd⟩
  fl_fetched := by simp [hfl]
  dl_fetched := by simp [hd]
  dl_current := by simp [hd]
  in_order := by simp [hd]
  drained := by simp [hd]
  fault_kept := by simp [hf]

theorem Inv.stall_ne_three {s : State} (hi : Inv s) : s.stall ≠ 3#2 := by
  intro h
  have hle := hi.stall_le
  rw [h] at hle
  exact absurd hle (by decide)

/-- Execute keeps the invariants, with or without a control transfer. -/
theorem Inv.executed {s : State} (hi : Inv s) (hf : s.faulted = none) : Inv s.executed := by
  by_cases hr : ∀ d ∈ s.dl, d.redirect = none
  · obtain ⟨hpc, hfl, hstall⟩ := State.executed_pipeline hr
    refine ⟨?im_wf, State.executed_dm_wf hi.dm_wf, ?stall_le, ?stalled_empty, ?fl_fetched, ?_, ?_, ?_, ?_, ?_⟩
    case im_wf => simpa using hi.im_wf
    case stall_le => rw [hstall]; exact hi.stall_le
    case stalled_empty =>
      rw [hstall, hfl]
      exact fun hne => ⟨(hi.stalled_empty hne).1, s.executed_dl⟩
    case fl_fetched =>
      rw [hpc, hfl, State.executed_im]
      exact hi.fl_fetched
    all_goals simp [hf]
  · push Not at hr
    obtain ⟨d, hd, hne⟩ := hr
    obtain ⟨p, hp⟩ := Option.ne_none_iff_exists'.1 hne
    rw [State.executed_of_redirect hd hp]
    exact Inv.of_emptyLatches hi.im_wf hi.dm_wf (Nat.le_refl 2) hf rfl rfl

/-- Decode reads the register file and nothing else of the state (R105). -/
theorem latchOf_congr {s t : State} (hx : t.x = s.x) (w : Word) (pc : WorkInt) (c : Decoded) :
    latchOf t w pc c = latchOf s w pc c := by
  simp only [latchOf, secondValueAt, State.reg_congr hx]

theorem latchCurrent_congr {s t : State} (hx : t.x = s.x) {d : DecodeLatch} (h : latchCurrent s d) :
    latchCurrent t d := by
  rwa [latchCurrent, latchOf_congr hx]

/-- The decoder's record is still in the latch. -/
theorem decoded_latchOf {w : Word} {c : Decoded} (hc : decodeFields w = .ok c) (s : State) (pc : WorkInt) :
    DecodeLatch.decoded (latchOf s w pc c) = c := by
  obtain ⟨_, hfmt, _, _⟩ := decodeFields_ok hc
  calc DecodeLatch.decoded (latchOf s w pc c)
      = { c with fmt := c.opcode.format } := rfl
    _ = c := by rw [← hfmt]

theorem latchCurrent_latchOf {w : Word} {c : Decoded} (hc : decodeFields w = .ok c) (s : State) (pc : WorkInt) :
    latchCurrent s (latchOf s w pc c) := by
  rw [latchCurrent, decoded_latchOf hc]
  exact ⟨hc, rfl⟩

/-! ## Fetch, seen from the address it reads -/

theorem settle_of_fetchedFrom {im : Memory Config.ilen} {a : WorkInt} {w : Word} (h : fetchedFrom im a w) :
    settle im a = a := by
  obtain ⟨_, hread, hw⟩ := h
  exact if_neg fun hz => hw (hread.symm.trans hz.2)

theorem settle_of_ge (im : Memory Config.ilen) {a : WorkInt} (h : Config.imemWords ≤ a.toNat) :
    settle im a = a :=
  if_neg fun hz => Nat.not_le.2 hz.1 h

/-- The end of the program is met once: `IMEM_WORDS` is past the bound itself. -/
theorem settle_settle (im : Memory Config.ilen) (a : WorkInt) : settle im (settle im a) = settle im a := by
  by_cases h : a.toNat < Config.imemWords ∧ imemRead im a = 0#16
  · have ha : settle im a = 1024#16 := if_pos h
    rw [ha]
    exact settle_of_ge im (Nat.le_refl 1024)
  · have ha : settle im a = a := if_neg h
    rw [ha, ha]

/-- Fetch into an Empty `FL`: it either settles `pc` or takes the word there (R101, R102, R103). -/
theorem fetchStage_settles_or_fills {s : State} (h0 : s.stall = 0#2) (hfl : s.fl = none) :
    ((fetchStage s).fl = none ∧ (fetchStage s).pc = settle s.im s.pc) ∨
    (∃ w, fetchedFrom s.im s.pc w ∧ (fetchStage s).fl = some { raw := w, fetchPC := s.pc } ∧
      (fetchStage s).pc = s.pc + 1#16) := by
  by_cases hpc : s.pc.toNat < Config.imemWords
  · by_cases hw : imemRead s.im s.pc = 0#16
    · rw [fetchStage_of_sentinel h0 hpc hw]
      exact .inl ⟨hfl, (if_pos ⟨hpc, hw⟩).symm⟩
    · rw [fetchStage_of_word h0 hpc hw]
      exact .inr ⟨_, ⟨hpc, rfl, hw⟩, rfl, rfl⟩
  · have hge := Nat.not_lt.1 hpc
    rw [fetchStage_of_idle (.inr hge)]
    exact .inl ⟨hfl, (settle_of_ge s.im hge).symm⟩

/-! ## Decode and Fetch keep the invariants -/

/-- What Decode leaves for Fetch when it does not fault: an Empty `FL`, and `pc` one past the
instruction in `DL`. -/
structure AwaitsFetch (s : State) : Prop where
  im_wf : Memory.wf Config.imemWords s.im = true
  dm_wf : Memory.wf Config.dmemBytes s.dm = true
  running : s.stall = 0#2
  not_faulted : s.faulted = none
  fl_empty : s.fl = none
  dl_fetched : ∀ d ∈ s.dl, fetchedFrom s.im d.instrPC d.raw
  dl_current : ∀ d ∈ s.dl, latchCurrent s d
  dl_next : ∀ d ∈ s.dl, s.pc = d.instrPC + 1#16

theorem AwaitsFetch.inv_fetchStage {s : State} (h : AwaitsFetch s) : Inv (fetchStage s) where
  im_wf := by rw [fetchStage_im]; exact h.im_wf
  dm_wf := by rw [fetchStage_dm]; exact h.dm_wf
  stall_le := by rw [fetchStage_stall, h.running]; decide
  stalled_empty hne := absurd ((fetchStage_stall s).trans h.running) hne
  fl_fetched f hf := by
    rw [fetchStage_im]
    rcases fetchStage_settles_or_fills h.running h.fl_empty with ⟨hfl, _⟩ | ⟨w, hw, hfl, hpc⟩
    · cases hfl.symm.trans hf
    · cases hfl.symm.trans hf
      exact ⟨hw, hpc⟩
  dl_fetched := by rw [fetchStage_dl, fetchStage_im]; exact h.dl_fetched
  dl_current := by
    rw [fetchStage_dl]
    exact fun d hd => latchCurrent_congr (fetchStage_x s) (h.dl_current d hd)
  in_order := by
    rw [fetchStage_dl]
    exact fun d hd f hf => (fetchStage_fetchPC h.fl_empty hf).trans (h.dl_next d hd)
  drained := by
    rw [fetchStage_dl, fetchStage_im]
    intro d hd hempty
    rcases fetchStage_settles_or_fills h.running h.fl_empty with ⟨_, hpc⟩ | ⟨w, _, hfl, _⟩
    · rw [hpc, h.dl_next d hd]
    · cases hfl.symm.trans hempty
  fault_kept := by simp [h.not_faulted]

theorem Inv.finishCycle {s : State} (hi : Inv s) (hf : s.faulted = none) (hd : s.dl = none) :
    Inv (finishCycle s) := by
  by_cases h0 : s.stall = 0#2
  · cases hfl : s.fl with
    | none =>
      rw [finishCycle_of_empty hf hfl]
      exact AwaitsFetch.inv_fetchStage
        ⟨hi.im_wf, hi.dm_wf, h0, hf, hfl, by simp [hd], by simp [hd], by simp [hd]⟩
    | some f =>
      obtain ⟨hfetched, hpc⟩ := hi.fl_fetched f hfl
      cases hdec : decodeFields f.raw with
      | ok c =>
        rw [finishCycle_of_valid hf h0 hfl hdec]
        refine AwaitsFetch.inv_fetchStage ⟨hi.im_wf, hi.dm_wf, h0, hf, rfl, ?_, ?_, ?_⟩ <;>
          rintro d ⟨⟩
        · exact hfetched
        · exact latchCurrent_congr rfl (latchCurrent_latchOf hdec s f.fetchPC)
        · exact hpc
      | error e =>
        obtain ⟨rfl, _⟩ := decodeFields_error hdec
        rw [finishCycle_of_invalid h0 hfl hdec]
        exact { hi with fault_kept := by rintro r ⟨⟩; exact ⟨hfl, hd, h0, hdec⟩ }
  · rwa [finishCycle_of_stalled h0 hf]

/-! ## Every step -/

/-- Settles O51: a running cycle by its two halves; a stalled one leaves the latches Empty. -/
theorem everyStepKeepsInvariant : Obligations.EveryStepKeepsInvariant := by
  intro s t hi h
  rcases step_next_cases h with ⟨_, rfl⟩ | ⟨hf, _, rfl⟩ | ⟨hf, h1, rfl⟩ | ⟨hf, h2, rfl⟩
  · exact hi
  · exact (hi.executed hf).finishCycle (s.executed_faulted.trans hf) s.executed_dl
  · exact Inv.of_emptyLatches hi.im_wf hi.dm_wf (Nat.zero_le 2) hf rfl rfl
  · obtain ⟨hfl, hd⟩ := hi.stalled_empty (by simp [h2])
    exact Inv.of_emptyLatches hi.im_wf hi.dm_wf (Nat.le_succ 1) hf hfl hd

/-- The one stop of a step is on a stall counter that the invariants exclude (R118 (d), R189). -/
theorem Inv.exists_step {s : State} (hi : Inv s) : ∃ t, step s = .next t := by
  by_cases hf : s.faulted = none
  · rcases stall_cases s.stall with h0 | h1 | h2 | h3
    · exact ⟨_, step_of_running hf h0⟩
    · exact ⟨_, step_of_stall_one hf h1⟩
    · exact ⟨_, step_of_stall_two hf h2⟩
    · exact absurd h3 hi.stall_ne_three
  · exact ⟨s, step_of_faulted hf⟩

/-- Settles O52: Decode empties `FL` whenever it does not fault. -/
theorem noLatchIsOverwritten : Obligations.NoLatchIsOverwritten := by
  intro s t _ _ _ ht
  obtain rfl := (executeStage_eq_next_iff s t).1 ht
  refine ⟨s.executed_dl, fun hnf h0 => ?_⟩
  rcases decodeStage_cases s.executed with ⟨hne, _⟩ | ⟨_, hfl, e⟩ | ⟨_, _, _, _, _, e⟩ | ⟨_, _, _, _, _, e⟩
  · exact absurd ((decodeStage_stall _).symm.trans h0) hne
  · rw [e, hfl]
  · simp [e] at hnf
  · rw [e]

end Sys2Proof
end

section
/-! PROOF. Sequential equivalence (40_pipeline.md R120). The sequential machine is written with the library's
bit-vector operations; the first part shows that Execute's results and flags are those. Then each half of a cycle
is seen through `seqView`: Execute is one step of the sequential machine, Decode and Fetch are none. -/

namespace Sys2Proof.Machine

/-! ## Execute's results as bit-vector operations -/

theorem addResult_eq_add (a : Byte) (b : WorkInt) : addResult a b = a + lowByte b := by
  rw [addResult_eq, BitVec.ofNat_add, BitVec.ofNat_toNat, BitVec.ofNat_toNat, BitVec.setWidth_eq,
    BitVec.setWidth_eq]

theorem subResult_eq_sub (a : Byte) (b : WorkInt) : subResult a b = a - lowByte b := by
  apply BitVec.eq_of_toInt_eq
  rw [subResult_eq, BitVec.toInt_ofInt, BitVec.toInt_sub, BitVec.toInt_eq_toNat_bmod, BitVec.toInt_eq_toNat_bmod,
    Int.sub_bmod_bmod, Int.bmod_sub_bmod]

theorem mulResult_eq_mul (a : Byte) (b : WorkInt) : mulResult a b = a * lowByte b := by
  rw [mulResult_eq, BitVec.ofNat_mul, BitVec.ofNat_toNat, BitVec.ofNat_toNat, BitVec.setWidth_eq,
    BitVec.setWidth_eq]

theorem salResult_eq_shiftLeft (a : Byte) (b : WorkInt) : salResult a b = a <<< b.toNat := by
  rw [salResult_eq]
  split
  case isTrue h => exact (BitVec.shiftLeft_eq_zero h).symm
  case isFalse h =>
    apply BitVec.eq_of_toNat_eq
    rw [BitVec.toNat_ofNat, BitVec.toNat_shiftLeft, Nat.shiftLeft_eq]

theorem negativeFlag_eq_msb (r : Byte) : negativeFlag r = r.msb :=
  (BitVec.msb_eq_getLsbD_last r).symm

/-- A shift by the width or more leaves copies of the sign bit. -/
theorem sshiftRight_of_ge {w : Nat} (a : BitVec w) {n : Nat} (h : w ≤ n) :
    a.sshiftRight n = if a.msb then BitVec.allOnes w else 0#w := by
  apply BitVec.eq_of_getLsbD_eq
  intro i hi
  rw [BitVec.getLsbD_sshiftRight, if_neg (by omega)]
  cases a.msb <;> simp [hi]

theorem sarResult_eq_sshiftRight (a : Byte) (b : WorkInt) : sarResult a b = a.sshiftRight b.toNat := by
  rw [sarResult_eq]
  split
  case isTrue h => rw [sshiftRight_of_ge a h, ← negativeFlag_eq_msb]; rfl
  case isFalse h =>
    rw [BitVec.sshiftRight, Int.shiftRight_eq_div_pow]
    norm_cast

theorem addCarry_eq_uaddOverflow (a b : Byte) : addCarry a b = BitVec.uaddOverflow a b := rfl
theorem subCarry_eq_usubOverflow (a b : Byte) : subCarry a b = BitVec.usubOverflow a b := rfl
theorem addOverflow_eq_saddOverflow (a b : Byte) : addOverflow a b = BitVec.saddOverflow a b := by
  rw [addOverflow, outsideSigned, BitVec.saddOverflow, Bool.or_comm]
theorem subOverflow_eq_ssubOverflow (a b : Byte) : subOverflow a b = BitVec.ssubOverflow a b := by
  rw [subOverflow, outsideSigned, BitVec.ssubOverflow, Bool.or_comm]

@[simp] theorem lowByte_zeroExtend8 (v : Byte) : lowByte (zeroExtend8 v) = v :=
  BitVec.setWidth_setWidth_of_le v (show 8 ≤ 16 by decide)

end Sys2Proof.Machine

namespace Sys2Proof

open Machine

/-! ## One instruction -/

/-- The operands in a current latch are those that the sequential machine reads (R120). -/
theorem operands_of_latchCurrent {s : State} {d : DecodeLatch} (h : latchCurrent s d) :
    d.a = s.reg d.rs ∧
    (d.opcode.format = .register → lowByte d.b = s.reg (rtOfSecond d.second)) ∧
    (d.opcode.format = .immediate → d.b = d.second) := by
  obtain ⟨_, hd⟩ := h
  have hb : d.b = secondValueAt s d.opcode.format d.second := congrArg DecodeLatch.secondValue hd
  refine ⟨congrArg DecodeLatch.sourceValue hd, fun hfmt => ?_, fun hfmt => ?_⟩ <;> rw [hb, hfmt]
  · exact lowByte_zeroExtend8 _
  · rfl

/-- What Execute does with a current latch is what the sequential machine does with the instruction. -/
theorem Seq.perform_instr {s : State} {d : DecodeLatch} (h : latchCurrent s d) :
    Seq.perform d.instr { x := s.x, sr := s.sr, dm := s.dm, pc := d.instrPC } =
      { x := (effectOf d.instr s d).x, sr := (effectOf d.instr s d).sr, dm := (effectOf d.instr s d).dm,
        pc := d.redirect.getD (d.instrPC + 1#16) } := by
  obtain ⟨ha, hregister, himmediate⟩ := operands_of_latchCurrent h
  unfold DecodeLatch.instr DecodeLatch.redirect instrOf
  cases hop : d.opcode
  case add | sub | mul | eor =>
    have hb := hregister (by rw [hop]; rfl)
    simp only [effectOf, addResult_eq_add, subResult_eq_sub, mulResult_eq_mul, eorResult, writeArith, arithFlags,
      writeLogic, logicFlags, addCarry_eq_uaddOverflow, addOverflow_eq_saddOverflow, subCarry_eq_usubOverflow,
      subOverflow_eq_ssubOverflow, negativeFlag_eq_msb, ha, hb]
    rfl
  case movi | andi | sal | sar | ldr | str =>
    have hb := himmediate (by rw [hop]; rfl)
    simp only [effectOf, moviResult, andiResult, salResult_eq_shiftLeft, sarResult_eq_sshiftRight, lowByte_eq,
      writeLogic, logicFlags, negativeFlag_eq_msb, ha, hb]
    rfl
  case beqz =>
    have hb := himmediate (by rw [hop]; rfl)
    have hreg : Seq.reg { x := s.x, sr := s.sr, dm := s.dm, pc := d.instrPC } d.rs = s.reg d.rs := rfl
    simp only [effectOf, Seq.perform, beqzTarget_eq_add, ha, hb, hreg]
    split <;> rfl
  case br =>
    have hb := hregister (by rw [hop]; rfl)
    simp only [effectOf, brTarget, ha, hb]
    rfl

/-! ## The sequential view of a state -/

/-- The view reads the data, and `pc` only through the oldest address. -/
theorem seqView_eq_of {s t : State} (hx : t.x = s.x) (hsr : t.sr = s.sr) (hdm : t.dm = s.dm)
    (hpc : settle t.im (oldestPC t) = settle s.im (oldestPC s)) : seqView t = seqView s := by
  rw [seqView, seqView, hx, hsr, hdm, hpc]

theorem oldestPC_of_dl {s : State} {d : DecodeLatch} (hd : s.dl = some d) : oldestPC s = d.instrPC := by
  rw [oldestPC, hd]

theorem oldestPC_of_fl {s : State} {f : FetchLatch} (hd : s.dl = none) (hfl : s.fl = some f) :
    oldestPC s = f.fetchPC := by
  rw [oldestPC, hd, hfl]

theorem oldestPC_of_empty {s : State} (hd : s.dl = none) (hfl : s.fl = none) : oldestPC s = s.pc := by
  rw [oldestPC, hd, hfl]

/-- One step of the sequential machine at a word that the pipeline fetched. -/
theorem Seq.next_of_fetchedFrom {im : Memory Config.ilen} {m : Seq} {w : Word} {i : Instr}
    (hw : fetchedFrom im m.pc w) (hi : decode w = .ok i) :
    Seq.next im m = { Seq.perform i m with pc := settle im (Seq.perform i m).pc } := by
  obtain ⟨hpc, rfl, hne⟩ := hw
  rw [Seq.next, if_pos ⟨hpc, hne⟩, hi]

theorem decode_of_latchCurrent {s : State} {d : DecodeLatch} (h : latchCurrent s d) :
    decode d.raw = .ok d.instr := by
  obtain ⟨hdec, _⟩ := h
  exact (decode_eq_ok_iff _ _).2 ⟨_, hdec, rfl⟩

/-- The sequential machine's step on the instruction in `DL`. -/
theorem Seq.next_seqView {s : State} (hi : Inv s) {d : DecodeLatch} (hd : s.dl = some d) :
    Seq.next s.im (seqView s) =
      { x := (effectOf d.instr s d).x, sr := (effectOf d.instr s d).sr, dm := (effectOf d.instr s d).dm,
        pc := settle s.im (d.redirect.getD (d.instrPC + 1#16)) } := by
  have hfetched := hi.dl_fetched d hd
  have hcur := hi.dl_current d hd
  have hview : seqView s = { x := s.x, sr := s.sr, dm := s.dm, pc := d.instrPC } := by
    rw [seqView, oldestPC_of_dl hd, settle_of_fetchedFrom hfetched]
  rw [hview, Seq.next_of_fetchedFrom hfetched (decode_of_latchCurrent hcur), Seq.perform_instr hcur]

/-- After Execute the oldest address is the next instruction's: the target, or the address after the one in `DL`,
which is in `FL` or, at the end of the program, is past the bound. -/
theorem settle_oldestPC_executed {s : State} (hi : Inv s) {d : DecodeLatch} (hd : s.dl = some d) :
    settle s.im (oldestPC s.executed) = settle s.im (d.redirect.getD (d.instrPC + 1#16)) := by
  cases hr : d.redirect with
  | some p => rw [State.executed_of_redirect hd hr]; rfl
  | none =>
    obtain ⟨hpc, hfl, _⟩ := State.executed_pipeline (s := s) fun e he => by cases hd.symm.trans he; exact hr
    cases hf : s.fl with
    | some f => rw [oldestPC_of_fl s.executed_dl (hfl.trans hf), hi.in_order d hd f hf]; rfl
    | none =>
      rw [oldestPC_of_empty s.executed_dl (hfl.trans hf), hpc, hi.drained d hd hf, settle_settle]
      rfl

/-- Execute is one step of the sequential machine. -/
theorem seqView_executed {s : State} (hi : Inv s) {d : DecodeLatch} (hd : s.dl = some d) :
    seqView s.executed = Seq.next s.im (seqView s) := by
  rw [Seq.next_seqView hi hd, seqView, State.executed_im, settle_oldestPC_executed hi hd,
    State.executed_of_occupied hd]

/-- Fetch is no step of it: the word it reads, or the end of the program it meets, was next already. -/
theorem seqView_fetchStage {s : State} (h0 : s.stall = 0#2) (hfl : s.fl = none) :
    seqView (fetchStage s) = seqView s := by
  refine seqView_eq_of (fetchStage_x s) (fetchStage_sr s) (fetchStage_dm s) ?_
  rw [fetchStage_im]
  cases hd : s.dl with
  | some d => rw [oldestPC_of_dl hd, oldestPC_of_dl ((fetchStage_dl s).trans hd)]
  | none =>
    have hd' := (fetchStage_dl s).trans hd
    rw [oldestPC_of_empty hd hfl]
    rcases fetchStage_settles_or_fills h0 hfl with ⟨hfl', hpc⟩ | ⟨w, _, hfl', _⟩
    · rw [oldestPC_of_empty hd' hfl', hpc, settle_settle]
    · rw [oldestPC_of_fl hd' hfl']

/-- Decode and Fetch are no step of the sequential machine. -/
theorem seqView_finishCycle {s : State} (hf : s.faulted = none) (hd : s.dl = none) :
    seqView (finishCycle s) = seqView s := by
  by_cases h0 : s.stall = 0#2
  · cases hfl : s.fl with
    | none => rw [finishCycle_of_empty hf hfl, seqView_fetchStage h0 hfl]
    | some f =>
      cases hdec : decodeFields f.raw with
      | ok c =>
        rw [finishCycle_of_valid hf h0 hfl hdec]
        refine Eq.trans (seqView_fetchStage h0 rfl) (seqView_eq_of rfl rfl rfl ?_)
        rw [oldestPC_of_fl hd hfl]
        rfl
      | error e =>
        rw [finishCycle_of_invalid h0 hfl hdec]
        rfl
  · rw [finishCycle_of_stalled h0 hf]

/-! ## Cycles and runs -/

theorem executingLatch_of_running {s : State} (hf : s.faulted = none) (h0 : s.stall = 0#2) :
    executingLatch s = s.dl := by
  simp [executingLatch, State.isFaulted, hf, h0]

/-- Settles O55: Execute is the step, when there is one; everything else leaves the view alone. -/
theorem cycleRefinesSequentialMachine : Obligations.CycleRefinesSequentialMachine := by
  intro s t hi h
  rcases step_next_cases h with ⟨hf, rfl⟩ | ⟨hf, h0, rfl⟩ | ⟨hf, h1, rfl⟩ | ⟨hf, h2, rfl⟩
  · rw [executingLatch_eq_none fun d ⟨hn, _⟩ => hf hn]
    rfl
  · rw [seqView_finishCycle (s.executed_faulted.trans hf) s.executed_dl, executingLatch_of_running hf h0]
    cases hd : s.dl with
    | none => rw [State.executed_of_empty hd]; rfl
    | some d => exact seqView_executed hi hd
  · obtain ⟨hfl, hd⟩ := hi.stalled_empty (by simp [h1])
    rw [executingLatch_eq_none fun d ⟨_, h0, _⟩ => by simp [h1] at h0]
    exact seqView_eq_of rfl rfl rfl (by rw [oldestPC_of_empty hd hfl]; rfl)
  · rw [executingLatch_eq_none fun d ⟨_, h0, _⟩ => by simp [h2] at h0]
    rfl

theorem executedIn_succ {s t : State} (h : step s = .next t) (n : Nat) :
    executedIn (n + 1) s = (if (executingLatch s).isSome then 1 else 0) + executedIn n t := by
  rw [executedIn, h]

/-- The steps of one cycle, then those of the rest of the run. -/
theorem run_executedIn_succ {s t : State} (hi : Inv s) (h : step s = .next t) (n : Nat) :
    Seq.run s.im (executedIn (n + 1) s) (seqView s) = Seq.run s.im (executedIn n t) (seqView t) := by
  rw [executedIn_succ h, cycleRefinesSequentialMachine s t hi h]
  cases (executingLatch s).isSome
  · rw [if_neg Bool.false_ne_true, if_neg Bool.false_ne_true, Nat.zero_add]
  · rw [if_pos rfl, if_pos rfl, Nat.add_comm, Seq.run]

/-- Settles O56, by induction on the number of cycles. -/
theorem runRefinesSequentialMachine : Obligations.RunRefinesSequentialMachine := by
  intro n
  induction n with
  | zero => exact fun s hi => ⟨s, rfl, hi, rfl, rfl⟩
  | succ n ih =>
    intro s hi
    obtain ⟨u, hstep⟩ := hi.exists_step
    obtain ⟨t, hrun, ht, him, hview⟩ := ih u (everyStepKeepsInvariant s u hi hstep)
    have hsame := step_im hstep
    refine ⟨t, (afterCycles_succ hstep n).trans hrun, ht, him.trans hsame, ?_⟩
    rw [run_executedIn_succ hi hstep, hview, hsame]

end Sys2Proof
end

section
/-! PROOF. The eight ALU instructions (41_alu.md R131 to R145). Each writes one register and perhaps flags, so its
frame is that of `setReg` (`onlyRegister_setReg`); its result is the bit-vector operation that sequential
equivalence showed it to be; and its flags are those of `arithFlags` or `logicFlags`, read at that result. -/

namespace Sys2Proof.Machine

/-! ## What Execute answers -/

/-- With an Occupied latch, the effect of the instruction is the only answer. -/
theorem exec_eq_next_iff {s t : State} {d : DecodeLatch} (hd : s.dl = some d) (i : Instr) :
    exec i s = .next t ↔ effectOf i s d = t := by
  rw [exec_eq_effectOf hd, Host.Outcome.next.injEq]

/-- What an instruction does to the flags: those outside its opcode's mask stay (10_state.md R26). -/
theorem exec_flags {i : Instr} {s t : State} (h : exec i s = .next t) :
    FlagsKeptOutside (flagsWritten i.opcode) s.sr t.sr := by
  cases hd : s.dl with
  | none =>
    rw [exec_of_empty hd, Host.Outcome.next.injEq] at h
    exact h ▸ .refl _ _
  | some d =>
    rw [exec_eq_next_iff hd] at h
    subst h
    cases i with
    | add | sub => exact .of_allOnes _ _
    | mul | andi | eor | sal | sar => exact .logicFlags _ _
    | movi | br | ldr | str => exact .refl _ _
    | beqz rs imm =>
      simp only [effectOf]
      split <;> exact .refl _ _

/-- The mask 0 keeps the whole register. -/
theorem FlagsKeptOutside.eq_of_zero {old new : StatusRegister} (h : FlagsKeptOutside 0b00000#5 old new) :
    new = old := by
  obtain ⟨hc, hv, hn, hs, hz⟩ := h
  rw [StatusRegister.mk.injEq]
  exact ⟨hz rfl, hn rfl, hc rfl, hv rfl, hs rfl⟩

/-! ## Register writes with their flags -/

theorem onlyRegister_setReg (s : State) (rs : RegIdx) (v : Byte) : OnlyRegister rs s (s.setReg rs v) :=
  ⟨fun _ hj => State.reg_setReg_other s v hj, ⟨rfl, rfl, rfl, rfl, rfl⟩, fun _ => rfl, fun _ => rfl⟩

theorem onlyRegister_writeArith (s : State) (rs : RegIdx) (r : Byte) (carry overflow : Bool) :
    OnlyRegister rs s (writeArith s rs r carry overflow) :=
  onlyRegister_setReg s rs r

theorem onlyRegister_writeLogic (s : State) (rs : RegIdx) (r : Byte) : OnlyRegister rs s (writeLogic s rs r) :=
  onlyRegister_setReg s rs r

@[simp] theorem reg_writeArith_same (s : State) (rs : RegIdx) (r : Byte) (carry overflow : Bool) :
    (writeArith s rs r carry overflow).reg rs = r :=
  State.reg_setReg_same s rs r

@[simp] theorem reg_writeLogic_same (s : State) (rs : RegIdx) (r : Byte) : (writeLogic s rs r).reg rs = r :=
  State.reg_setReg_same s rs r

theorem zeroFlag_iff (r : Byte) : zeroFlag r = true ↔ r = 0x00#8 := decide_eq_true_iff

/-! ## The fields of the encoding, and the bits of the operand -/

theorem imm6Of_eq (imm : WorkInt) : imm6Of imm = imm.extractLsb' 0 6 :=
  BitVec.setWidth_eq_extractLsb' (show 6 ≤ 16 by decide)

/-- An immediate's word, its field written as the bits that the assembler takes (30_encoding.md R77). -/
theorem encodeFields_imm6Of (op : BitVec 4) (rs : RegIdx) (imm : WorkInt) :
    encodeFields op rs (imm6Of imm) = ((op ++ rs ++ imm.extractLsb' 0 6 : BitVec (4 + 6 + 6)) : Word) := by
  rw [imm6Of_eq]; rfl

theorem getLsbD_lowByte (b : WorkInt) {k : Nat} (hk : k < 8) : (lowByte b).getLsbD k = b.getLsbD k := by
  rw [lowByte, BitVec.getLsbD_setWidth, decide_eq_true hk, Bool.true_and]

/-- The low byte of an extended 6-bit field is the field extended to a byte: `sext_8(imm6)` (R140). -/
theorem lowByte_signExtend6 (f : BitVec 6) : lowByte (signExtend6 f) = (f.signExtend 8 : BitVec 8) := by
  apply BitVec.eq_of_getLsbD_eq
  intro k hk
  rw [getLsbD_lowByte _ hk, signExtend6_eq, BitVec.getLsbD_signExtend, BitVec.getLsbD_signExtend,
    decide_eq_true hk, decide_eq_true (Nat.lt_trans hk (show 8 < 16 by decide))]

/-! ## The flags of ADD and SUB -/

/-- An exact sum or difference of two bytes is negative when exactly one of its truncation's sign bit and the
overflow says so (R135). -/
theorem negativeFlag_xor_outsideSigned_iff {r : Byte} {i : Int} (hr : r.toInt = i.bmod 256) (hlo : -256 ≤ i)
    (hhi : i < 256) : (negativeFlag r ^^ outsideSigned i) = true ↔ i < 0 := by
  have hn : negativeFlag r = true ↔ r.toInt < 0 := by
    rw [negativeFlag_eq_msb, BitVec.msb_eq_toInt, decide_eq_true_iff]
  rw [Bool.xor_iff_ne, Ne, Bool.eq_iff_iff, hn, outsideSigned_iff, hr, Int.bmod_def]
  split <;> omega

theorem Byte.toInt_bounds (a : Byte) : -128 ≤ a.toInt ∧ a.toInt < 128 :=
  ⟨BitVec.le_toInt a, BitVec.toInt_lt⟩

theorem add_signFlag_iff (a : Byte) (b : WorkInt) :
    (negativeFlag (addResult a b) ^^ addOverflow a (lowByte b)) = true ↔ a.toInt + (lowByte b).toInt < 0 := by
  have ha := Byte.toInt_bounds a
  have hb := Byte.toInt_bounds (lowByte b)
  refine negativeFlag_xor_outsideSigned_iff ?_ (by omega) (by omega)
  rw [addResult_eq_add, BitVec.toInt_add]; rfl

theorem sub_signFlag_iff (a : Byte) (b : WorkInt) :
    (negativeFlag (subResult a b) ^^ subOverflow a (lowByte b)) = true ↔ a.toInt - (lowByte b).toInt < 0 := by
  have ha := Byte.toInt_bounds a
  have hb := Byte.toInt_bounds (lowByte b)
  refine negativeFlag_xor_outsideSigned_iff ?_ (by omega) (by omega)
  rw [subResult_eq_sub, BitVec.toInt_sub]; rfl

/-- Carry of ADD as bit 8 of the 9-bit sum (R132). -/
theorem addCarry_eq_bit (a b : Byte) : addCarry a b = (a.setWidth 9 + b.setWidth 9).getLsbD 8 := by
  rw [addCarry_eq_uaddOverflow, BitVec.uaddOverflow_eq, BitVec.msb_eq_getLsbD_last]
  rfl

/-- Borrow of SUB as bit 8 of the 9-bit difference (R133). -/
theorem subCarry_eq_bit (a b : Byte) : subCarry a b = (a.setWidth 9 - b.setWidth 9).getLsbD 8 := by
  have ha := a.toNat_lt
  have hb := b.toNat_lt
  change _ = (a.setWidth 9 - b.setWidth 9).getLsbD (9 - 1)
  rw [← BitVec.msb_eq_getLsbD_last, BitVec.msb_eq_decide, subCarry, decide_eq_decide, BitVec.toNat_sub,
    BitVec.toNat_setWidth, BitVec.toNat_setWidth]
  omega

/-- Overflow of ADD in bits (R134): the operands agree in sign and the sum does not. -/
theorem addOverflow_eq_bits (a b : Byte) :
    addOverflow a b = (a.getLsbD 7 == b.getLsbD 7 && (a + b).getLsbD 7 != a.getLsbD 7) := by
  rw [addOverflow_eq_saddOverflow, BitVec.saddOverflow_eq]
  simp only [← negativeFlag_eq_msb]
  rfl

/-- Overflow of SUB in bits (R134): the operands differ in sign and the difference has not `a`'s. -/
theorem subOverflow_eq_bits (a b : Byte) :
    subOverflow a b = (a.getLsbD 7 != b.getLsbD 7 && (a - b).getLsbD 7 != a.getLsbD 7) := by
  rw [subOverflow_eq_ssubOverflow, BitVec.ssubOverflow_eq]
  simp only [← negativeFlag_eq_msb, negativeFlag_eq]
  cases a.getLsbD 7 <;> cases b.getLsbD 7 <;> simp

/-- The two forms in which R134 gives the overflow of ADD. -/
theorem sameSign_and_changed (a b r : Bool) : (a == b && r != a) = ((a ^^ r) && (b ^^ r)) := by
  revert a b r; decide

/-! ## The shifts -/

/-- Zeros enter at bit 0 (R144). -/
theorem getLsbD_salResult (a : Byte) (b : WorkInt) {k : Nat} (hk : k < 8) :
    (salResult a b).getLsbD k = (decide (b.toNat ≤ k) && a.getLsbD (k - b.toNat)) := by
  rw [salResult_eq_shiftLeft, BitVec.getLsbD_shiftLeft, decide_eq_true hk, Bool.true_and,
    ← decide_not, decide_eq_decide.2 Nat.not_lt]

/-- Copies of bit 7 enter at bit 7 (R145). -/
theorem getLsbD_sarResult (a : Byte) (b : WorkInt) {k : Nat} (hk : k < 8) :
    (sarResult a b).getLsbD k = a.getLsbD (min 7 (k + b.toNat)) := by
  rw [sarResult_eq_sshiftRight, BitVec.getLsbD_sshiftRight, decide_eq_false (Nat.not_le.2 hk),
    Bool.not_false, Bool.true_and, Nat.add_comm]
  split
  case isTrue h => rw [Nat.min_eq_right (Nat.le_of_lt_succ h)]
  case isFalse h => rw [Nat.min_eq_left (Nat.le_of_succ_le (Nat.not_lt.1 h)), ← negativeFlag_eq_msb, negativeFlag_eq]

/-- The shift rounds toward minus infinity (R145). -/
theorem toInt_sarResult (a : Byte) (b : WorkInt) : (sarResult a b).toInt = Int.fdiv a.toInt (2 ^ b.toNat) := by
  rw [sarResult_eq_sshiftRight, BitVec.toInt_sshiftRight, Int.shiftRight_eq_div_pow,
    Int.fdiv_eq_ediv_of_nonneg _ (by positivity)]
  norm_cast

/-! ## The obligations -/

/-- Settles O10. -/
theorem addCompletesWithResultAndFlags : Obligations.AddCompletesWithResultAndFlags := by
  intro rs rt s d hd
  refine ⟨rfl, writeArith s rs _ _ _, exec_eq_effectOf hd _, onlyRegister_writeArith .., ?_⟩
  rw [← lowByte_eq, reg_writeArith_same]
  exact ⟨rfl, rfl, rfl, decide_eq_true_iff, outsideSigned_iff _, add_signFlag_iff _ _⟩

/-- Settles O11. -/
theorem subCompletesWithResultAndFlags : Obligations.SubCompletesWithResultAndFlags := by
  intro rs rt s d hd
  refine ⟨rfl, writeArith s rs _ _ _, exec_eq_effectOf hd _, onlyRegister_writeArith .., ?_⟩
  rw [← lowByte_eq, reg_writeArith_same]
  exact ⟨rfl, rfl, rfl, decide_eq_true_iff, outsideSigned_iff _, sub_signFlag_iff _ _⟩

/-- Settles O12: both products are the bit-vector product. -/
theorem mulCompletesWithLowByte : Obligations.MulCompletesWithLowByte := by
  intro rs rt s d hd
  refine ⟨rfl, writeLogic s rs _, exec_eq_effectOf hd _, onlyRegister_writeLogic .., ?_⟩
  rw [← lowByte_eq, reg_writeLogic_same]
  refine ⟨rfl, ?_, rfl⟩
  rw [mulResult_eq_mul, BitVec.ofInt_mul, BitVec.ofInt_toInt, BitVec.ofInt_toInt]
  rfl

/-- Settles O13: an immediate in range is the extension of its own 6-bit field. -/
theorem moviCompletesWithImmediate : Obligations.MoviCompletesWithImmediate := by
  rintro rs imm s d hd rfl
  refine ⟨encodeFields_imm6Of .., s.setReg rs _, exec_eq_effectOf hd _, onlyRegister_setReg .., ?_⟩
  rw [State.reg_setReg_same, ← lowByte_eq, ← imm6Of_eq]
  refine ⟨rfl, rfl, fun hrange => ?_⟩
  rw [← lowByte_signExtend6, signExtend6_imm6Of hrange]
  rfl

/-- Settles O16. -/
theorem salCompletesWithLeftShift : Obligations.SalCompletesWithLeftShift := by
  rintro rs imm s d hd rfl
  refine ⟨encodeFields_imm6Of .., writeLogic s rs _, exec_eq_effectOf hd _, onlyRegister_writeLogic .., ?_⟩
  rw [reg_writeLogic_same]
  exact ⟨fun hn => if_pos hn, fun hn => if_neg (Nat.not_le.2 hn), fun k hk => getLsbD_salResult _ _ hk, rfl⟩

/-- Settles O17. -/
theorem sarCompletesWithArithmeticShift : Obligations.SarCompletesWithArithmeticShift := by
  rintro rs imm s d hd rfl
  refine ⟨encodeFields_imm6Of .., writeLogic s rs _, exec_eq_effectOf hd _, onlyRegister_writeLogic .., ?_⟩
  rw [reg_writeLogic_same]
  exact ⟨fun hn => if_pos hn, fun _ => toInt_sarResult _ _, fun k hk => getLsbD_sarResult _ _ hk, rfl⟩

/-- Settles O14. -/
theorem andiCompletesWithMaskedValue : Obligations.AndiCompletesWithMaskedValue := by
  rintro rs imm s d hd rfl
  refine ⟨encodeFields_imm6Of .., writeLogic s rs _, exec_eq_effectOf hd _, onlyRegister_writeLogic .., ?_⟩
  rw [reg_writeLogic_same]
  refine ⟨fun k hk => ?_, rfl⟩
  rw [andiResult, BitVec.getLsbD_and, getLsbD_lowByte _ hk]
  rfl

/-- Settles O15. -/
theorem eorCompletesWithExclusiveOr : Obligations.EorCompletesWithExclusiveOr := by
  intro rs rt s d hd
  refine ⟨rfl, writeLogic s rs _, exec_eq_effectOf hd _, onlyRegister_writeLogic .., ?_⟩
  rw [reg_writeLogic_same]
  refine ⟨fun k hk => ?_, rfl⟩
  rw [eorResult, BitVec.getLsbD_xor, getLsbD_lowByte _ hk]
  rfl

/-- Settles O22: the flags by the bit forms of R132 to R134; S is N xor V by definition. -/
theorem addSubFlagsMatchBitFormulas : Obligations.AddSubFlagsMatchBitFormulas := by
  intro rs rt s t d hd a b
  rw [exec_eq_next_iff hd, exec_eq_next_iff hd, show b = lowByte d.b from (lowByte_eq _).symm]
  constructor
  · rintro rfl
    have hv := addOverflow_eq_bits a (lowByte d.b)
    rw [← addResult_eq_add] at hv
    simp only [effectOf, reg_writeArith_same]
    exact ⟨addCarry_eq_bit _ _, hv, hv.trans (sameSign_and_changed _ _ _), rfl⟩
  · rintro rfl
    have hv := subOverflow_eq_bits a (lowByte d.b)
    rw [← subResult_eq_sub] at hv
    simp only [effectOf, reg_writeArith_same]
    exact ⟨subCarry_eq_bit _ _, hv, rfl⟩

/-- Settles O23: all seven read both flags at the value that they write. -/
theorem zeroAndNegativeFollowResult : Obligations.ZeroAndNegativeFollowResult := by
  intro i s t d hd h hop
  rw [exec_eq_next_iff hd] at h
  subst h
  cases i with
  | add | sub =>
    simp only [effectOf, Instr.rs, reg_writeArith_same]
    exact ⟨zeroFlag_iff _, rfl⟩
  | mul | andi | eor | sal | sar =>
    simp only [effectOf, Instr.rs, reg_writeLogic_same]
    exact ⟨zeroFlag_iff _, rfl⟩
  | movi | beqz | br | ldr | str => simp [Instr.opcode] at hop

/-- Settles O24: the flags outside the mask of each row of the table stay. -/
theorem unwrittenFlagsAreKept : Obligations.UnwrittenFlagsAreKept := by
  intro i s t h
  have hkept := exec_flags h
  obtain ⟨_, hlogic, hnone⟩ := flagsWritten_table i.opcode
  constructor
  · intro hop
    rw [hlogic hop] at hkept
    obtain ⟨hc, hv, _, hs, _⟩ := hkept
    exact ⟨hc rfl, hv rfl, hs rfl⟩
  · intro hop
    rw [hnone hop] at hkept
    exact hkept.eq_of_zero

end Sys2Proof.Machine
end

section
/-! PROOF. LDR and STR (42_load_store.md R160 to R163). An access to the port is an access to the byte `DM[u(a)]`
below `DMEM_BYTES` and nothing at or above it, so each obligation has one clause per side of the bound; the frame of
LDR is that of `setReg`, and that of STR that of `store`. -/

namespace Sys2Proof.Machine

/-! ## The port below the bound -/

theorem dmemRead_of_lt {a : WorkInt} (h : a.toNat < Config.dmemBytes) (dm : List Host.Cell) :
    dmemRead dm a = Memory.read dm a.toNat :=
  if_pos h

/-- The byte that `MemWrite` leaves at its own address (20_memory.md R55). -/
theorem read_dmemWrite_same_of_lt {dm : List Host.Cell} (hwf : Memory.wf Config.dmemBytes dm = true) {a : WorkInt}
    (h : a.toNat < Config.dmemBytes) (v : Byte) : Memory.read (dmemWrite dm a v) a.toNat = v := by
  rw [← dmemRead_of_lt h, dmemRead_dmemWrite_same hwf, if_pos h]

/-! ## The frame of a store -/

theorem sameRegisters_store (s : State) (a : WorkInt) (v : Byte) : SameRegisters s (s.store a v) :=
  ⟨State.reg_store s a v, rfl⟩

theorem samePipeline_store (s : State) (a : WorkInt) (v : Byte) : SamePipeline s (s.store a v) :=
  ⟨rfl, rfl, rfl, rfl, rfl⟩

/-! ## The obligations -/

/-- Settles O18: the loaded byte is what the port reads, on each side of the bound. -/
theorem ldrCompletesWithLoadedByte : Obligations.LdrCompletesWithLoadedByte := by
  rintro rs imm s d hd rfl
  refine ⟨encodeFields_imm6Of .., s.setReg rs _, exec_eq_effectOf hd _, onlyRegister_setReg .., rfl, ?_⟩
  rw [State.reg_setReg_same]
  exact ⟨fun hlt => dmemRead_of_lt hlt s.dm, fun hge => dmemRead_of_ge hge s.dm⟩

/-- Settles O19: the addressed byte is read back in canonical form, every other one in any list; out of range the
write leaves the list as it is. -/
theorem strCompletesWithStoredByte : Obligations.StrCompletesWithStoredByte := by
  rintro rs imm s d hd rfl hwf
  refine ⟨encodeFields_imm6Of .., s.store _ _, exec_eq_effectOf hd _, sameRegisters_store .., samePipeline_store ..,
    rfl, fun hlt => ⟨?addressed, fun k hk => ?other⟩, fun hge k => ?outOfRange⟩
  case addressed => exact read_dmemWrite_same_of_lt hwf hlt d.a
  case other => exact read_dmemWrite_of_ne hk s.dm d.a
  case outOfRange => exact congrArg (Memory.read · k) (dmemWrite_of_ge hge s.dm d.a)

end Sys2Proof.Machine
end

section
/-! PROOF. BEQZ and BR (43_control_transfer.md R170 to R175). Both answer either the state they met or a
`transferTo` of it, so their frame is that of `transferTo`: the registers, the flags, both memories and the fault
record stay, and the pipeline is flushed and stalled (R110). -/

namespace Sys2Proof.Machine

/-! ## The frame of a control transfer -/

theorem sameRegisters_transferTo (s : State) (p : WorkInt) : SameRegisters s (s.transferTo p) :=
  ⟨State.reg_transferTo s p, State.transferTo_sr s p⟩

theorem sameMemories_transferTo (s : State) (p : WorkInt) : SameMemories s (s.transferTo p) :=
  ⟨fun k => congrArg (Memory.read · k) (State.transferTo_dm s p),
    fun k => congrArg (Memory.read · k) (State.transferTo_im s p)⟩

/-! ## What each instruction answers -/

theorem exec_beqz_of_zero {s : State} {d : DecodeLatch} (hd : s.dl = some d) (ha : d.a = 0x00#8) (rs : RegIdx)
    (imm : WorkInt) : exec (.beqz rs imm) s = .next (s.transferTo (beqzTarget d.instrPC d.b)) :=
  (exec_eq_effectOf hd _).trans (congrArg _ (if_pos ha))

theorem exec_beqz_of_ne_zero {s : State} {d : DecodeLatch} (hd : s.dl = some d) (ha : d.a ≠ 0x00#8) (rs : RegIdx)
    (imm : WorkInt) : exec (.beqz rs imm) s = .next s :=
  (exec_eq_effectOf hd _).trans (congrArg _ (if_neg ha))

/-- The pair of bytes `{a, b[7:0]}` as a number (R172): the high byte weighs 256. -/
theorem brTarget_toNat (a : Byte) (b : WorkInt) : (brTarget a b).toNat = a.toNat * 256 + (lowByte b).toNat := by
  calc (brTarget a b).toNat
      = a.toNat <<< 8 ||| (lowByte b).toNat := by rw [brTarget_eq, BitVec.toNat_append]
    _ = a.toNat <<< 8 + (lowByte b).toNat := (Nat.shiftLeft_add_eq_or_of_lt (lowByte b).toNat_lt _).symm
    _ = a.toNat * 256 + (lowByte b).toNat := by rw [Nat.shiftLeft_eq]

/-! ## The obligations -/

/-- Settles O21. -/
theorem brCompletesWithBytePairTarget : Obligations.BrCompletesWithBytePairTarget := by
  intro rs rt s d hd
  refine ⟨rfl, s.transferTo _, exec_eq_effectOf hd _, sameRegisters_transferTo .., sameMemories_transferTo .., rfl,
    ?target, rfl, rfl, rfl⟩
  rw [State.transferTo_pc, brTarget_toNat, lowByte_eq]
  rfl

/-- Settles O20. -/
theorem beqzCompletesTakenAndNotTaken : Obligations.BeqzCompletesTakenAndNotTaken := by
  rintro rs imm s d hd rfl
  refine ⟨encodeFields_imm6Of .., fun ha => ?taken, fun ha => exec_beqz_of_ne_zero hd ha ..⟩
  exact ⟨s.transferTo _, exec_beqz_of_zero hd ha .., sameRegisters_transferTo .., sameMemories_transferTo .., rfl,
    beqzTarget_eq .., rfl, rfl, rfl⟩

end Sys2Proof.Machine
end

section
/-! PROOF. The decode fault and the stops (60_exceptions.md R180 to R189). What a step can do is in `step_next_cases`
and `step_cases`; here the cycle that enters the faulted state is singled out, and the one stop. -/

namespace Sys2Proof.Machine

/-! ## The cycle that faults -/

/-- A control transfer discards the word in `FL` before Decode can consume it (R121, R181). -/
theorem redirect_eq_none_of_step_faults {s t : State} (h : step s = .next t) (hf : s.faulted = none)
    (h0 : s.stall = 0#2) (ht : t.faulted ≠ none) : ∀ d ∈ s.dl, d.redirect = none := by
  intro d hd
  by_contra hne
  obtain ⟨p, hp⟩ := Option.ne_none_iff_exists'.1 hne
  cases (step_of_redirect ⟨hf, h0, hd⟩ hp).symm.trans h
  exact ht hf

/-- Fetch and the stalled cycles raise no fault: a step that enters the faulted state is Execute, without a control
transfer, followed by Decode's fault on the word in `FL`. -/
theorem eq_takeDecodeFault_of_step_faults {s t : State} (h : step s = .next t) (hf : s.faulted = none)
    (ht : t.faulted ≠ none) :
    s.stall = 0#2 ∧ (∀ d ∈ s.dl, d.redirect = none) ∧
    ∃ f, s.fl = some f ∧ 11 < (opcodeField f.raw).toNat ∧ t = s.executed.takeDecodeFault f.fetchPC f.raw := by
  rcases step_next_cases h with ⟨hf', _⟩ | ⟨_, h0, rfl⟩ | ⟨_, _, rfl⟩ | ⟨_, _, rfl⟩
  · exact absurd hf hf'
  · have hr := redirect_eq_none_of_step_faults h hf h0 ht
    obtain ⟨_, hfl, hstall⟩ := State.executed_pipeline hr
    rw [Ne, finishCycle_executed_faulted_iff hf h0 hr] at ht
    push Not at ht
    obtain ⟨f, hmem, hop⟩ := ht
    exact ⟨h0, hr, f, hmem, hop,
      finishCycle_of_invalid (hstall.trans h0) (hfl.trans hmem) (decodeFields_of_gt hop)⟩
  · exact absurd hf ht
  · exact absurd hf ht

/-- Settles O36. -/
theorem onlyConsumedInvalidWordsFault : Obligations.OnlyConsumedInvalidWordsFault := by
  intro s t h hf ht
  obtain ⟨h0, hr, f, hfl, hop, rfl⟩ := eq_takeDecodeFault_of_step_faults h hf ht
  exact ⟨h0, hr, f, hfl, hop, rfl⟩

/-! ## The stop -/

/-- A step stops on the malformed stall counter of a core that is not faulted, and answers a next state otherwise. -/
theorem step_stops_or_continues (s : State) :
    ((s.faulted = none ∧ s.stall = 3#2) ∧ step s = .fault .malformedStall) ∨
    (¬(s.faulted = none ∧ s.stall = 3#2) ∧ ∃ t, step s = .next t) := by
  by_cases hf : s.faulted = none
  · rcases stall_cases s.stall with h0 | h1 | h2 | h3
    · exact .inr ⟨by simp [h0], _, step_of_running hf h0⟩
    · exact .inr ⟨by simp [h1], _, step_of_stall_one hf h1⟩
    · exact .inr ⟨by simp [h2], _, step_of_stall_two hf h2⟩
    · exact .inl ⟨⟨hf, h3⟩, step_of_stall_three hf h3⟩
  · exact .inr ⟨fun ⟨hf', _⟩ => hf hf', s, step_of_faulted hf⟩

/-- Settles O54. -/
theorem stepStopsOnlyOnMalformedStall : Obligations.StepStopsOnlyOnMalformedStall := by
  intro s
  rcases step_stops_or_continues s with ⟨hstop, e⟩ | ⟨hgo, t, e⟩
  · simp [e, hstop]
  · simp [e, hgo]

end Sys2Proof.Machine

namespace Sys2Proof

open Machine

/-- Settles O53. -/
theorem invariantStatesNeverStop : Obligations.InvariantStatesNeverStop :=
  fun _ hi => hi.exists_step

/-! ## Precision -/

/-- In a faulted core the oldest word not yet executed is the faulting one (R107, R182). -/
theorem Inv.seqView_of_faulted {s : State} (hi : Inv s) {r : FaultRecord} (hf : s.faulted = some r) :
    seqView s = { x := s.x, sr := s.sr, dm := s.dm, pc := r.pc } := by
  obtain ⟨hfl, hd, _, _⟩ := hi.fault_kept r hf
  obtain ⟨hfetched, _⟩ := hi.fl_fetched _ hfl
  rw [seqView, oldestPC_of_fl hd hfl, settle_of_fetchedFrom hfetched]

/-- Settles O38: the state of a faulted core is read off the invariants, which the faulting step keeps, and the older
instruction is the one step that sequential equivalence gives Execute. -/
theorem decodeFaultIsPrecise : Obligations.DecodeFaultIsPrecise := by
  intro s t r hi h hf ht
  obtain ⟨h0, _⟩ := eq_takeDecodeFault_of_step_faults h hf (by simp [ht])
  have hit : Inv t := everyStepKeepsInvariant s t hi h
  obtain ⟨hfl, hd, _, _⟩ := hit.fault_kept r ht
  obtain ⟨⟨_, hread, _⟩, hpc⟩ := hit.fl_fetched _ hfl
  refine ⟨hpc, hread, hd, hit.seqView_of_faulted ht, ?older⟩
  rw [cycleRefinesSequentialMachine s t hi h, executingLatch_of_running hf h0]
  cases s.dl with
  | none => rfl
  | some d => rfl

end Sys2Proof
end

section
/-! PROOF. Reset, boot and the hazard of a control transfer (70_reset_and_hazards.md R200 to R211). Boot and a reset
edge both answer the reset state with an instruction memory of their own, so each obligation about them is one about
`State.reset`. -/

namespace Sys2Proof.Machine

/-! ## The reset edge -/

theorem clockEdge_true (s : State) : clockEdge true s = .next s.resetCore := rfl

theorem clockEdge_false (s : State) : clockEdge false s = step s := rfl

@[simp] theorem State.reg_resetCore (s : State) (j : RegIdx) : s.resetCore.reg j = 0x00#8 :=
  (State.reg_congr s.resetCore_x j).trans (State.reg_reset j)

/-- Settles O44. -/
theorem resetEdgeRestoresAllButProgram : Obligations.ResetEdgeRestoresAllButProgram := by
  intro s
  refine ⟨⟨s.resetCore, clockEdge_true s, s.resetCore_im, State.reg_resetCore s, ?_⟩, clockEdge_false s⟩
  exact ⟨s.resetCore_sr, s.resetCore_pc, s.resetCore_fl, s.resetCore_dl, s.resetCore_stall, s.resetCore_faulted,
    fun _ => rfl⟩

/-! ## Boot -/

/-- The loader rejects a program by its length alone (R204). -/
theorem boot_eq_none_iff (program : List Word) : boot program = none ↔ Config.imemWords < program.length := by
  rw [boot, State.load, ite_eq_right_iff, ← Nat.not_le]
  simp only [reduceCtorEq, imp_false]

/-- Settles O43: the image is read by `imageFrom_read`, every other value is that of the reset state. -/
theorem bootLeavesResetStateAndImage : Obligations.BootLeavesResetStateAndImage := by
  refine fun program => ⟨(boot_eq_none_iff program).2, fun hlen => ?accepted⟩
  refine ⟨_, (boot_eq_some_iff program _).2 ⟨hlen, rfl⟩, State.reg_reset, rfl, rfl, rfl, rfl, rfl, rfl,
    fun _ => rfl, fun k => ?image⟩
  calc Memory.read (imageFrom 0 program) k
      = Memory.read (imageFrom 0 program) (0 + k) := by rw [Nat.zero_add]
    _ = program.getD k 0x0000#16 := imageFrom_read program 0 k

/-! ## The cycles after a control transfer -/

/-- The transfer sets the stall counter to 2 and the next cycle counts it down (R110, R112). -/
theorem afterCycles_two_of_redirect {s : State} {d : DecodeLatch} {p : WorkInt} (hx : Executes s d)
    (hr : d.redirect = some p) (n : Nat) :
    afterCycles (n + 2) s = afterCycles n { s with pc := p, fl := none, dl := none, stall := 1#2 } := by
  have hf : s.faulted = none := hx.1
  calc afterCycles (n + 2) s
      = afterCycles (n + 1) (s.transferTo p) := afterCycles_succ (step_of_redirect hx hr) (n + 1)
    _ = _ := afterCycles_succ (step_of_stall_two (s := s.transferTo p) hf rfl) n

/-- The second stalled cycle ends the stall: the core runs again, at the target (R112, R211). -/
theorem afterCycles_three_of_redirect {s : State} {d : DecodeLatch} {p : WorkInt} (hx : Executes s d)
    (hr : d.redirect = some p) (n : Nat) :
    afterCycles (n + 3) s = afterCycles n { s with pc := p, fl := none, dl := none, stall := 0#2 } := by
  rw [afterCycles_two_of_redirect hx hr (n + 1)]
  obtain ⟨hf, _⟩ := hx
  exact afterCycles_succ
    (step_of_stall_one (s := { s with pc := p, fl := none, dl := none, stall := 1#2 }) hf rfl) n

/-- Settles O30: the third cycle is a fetch into an Empty pipeline. -/
theorem targetFetchedThreeCyclesLater : Obligations.TargetFetchedThreeCyclesLater := by
  intro s d p hx hr
  refine ⟨afterCycles_two_of_redirect hx hr 0, afterCycles_three_of_redirect hx hr 0, fun hp hw => ?fetch⟩
  rw [afterCycles_three_of_redirect hx hr 1]
  obtain ⟨hf, _⟩ := hx
  exact afterCycles_succ
    (step_of_word_at_pc (s := { s with pc := p, fl := none, dl := none, stall := 0#2 }) hf rfl rfl rfl hp hw) 0

end Sys2Proof.Machine

namespace Sys2Proof

open Machine

/-! ## The invariants after reset and boot -/

/-- The reset state has Empty latches, so the invariants ask only for the canonical form of its program. -/
theorem Inv.reset_with_im {im : Memory Config.ilen} (him : Memory.wf Config.imemWords im = true) :
    Inv { State.reset with im := im } :=
  Inv.of_emptyLatches him rfl (Nat.zero_le 2) rfl rfl rfl

/-- Settles O49: the instruction memory of the reset state is the empty list. -/
theorem invariantHoldsAtReset : Obligations.InvariantHoldsAtReset :=
  Inv.reset_with_im rfl

/-- Settles O50: the image of an accepted program is in canonical form, and a reset edge keeps the program. -/
theorem invariantHoldsAfterBootAndReset : Obligations.InvariantHoldsAfterBootAndReset := by
  constructor
  · intro program s hboot
    obtain ⟨hlen, rfl⟩ := (boot_eq_some_iff program s).1 hboot
    have hfits : 0 + program.length ≤ Config.imemWords := by rwa [Nat.zero_add]
    exact Inv.reset_with_im (imageFrom_wf program hfits)
  · intro s t hi hedge
    cases (clockEdge_true s).symm.trans hedge
    exact Inv.reset_with_im hi.im_wf

end Sys2Proof
end
